-- ==== Sys2Proof/Word.lean ====
section
/-! DEFINITION. The words of the Memory Block's one port: cells, addresses, values, the packed request and
response words, and the request as a record of four fields (spec 00_scope.md R10, 30_encoding.md R54 to R57). -/

namespace Sys2Proof

/-- One cell of the storage array: 8 bits (R10). -/
abbrev Byte := BitVec 8

/-- A value, the datum of a load or a store: 64 bits (R10). -/
abbrev Word := BitVec 64

/-- A physical address: an unsigned 64-bit value (R28). -/
abbrev Addr := BitVec 64

/-- The command header `CMD = REQ[136:128] = {op, width}` (R55). -/
abbrev Cmd := BitVec 9

/-- The packed request word `REQ` (R55). -/
abbrev ReqWord := BitVec 137

/-- The packed response word `RSP` (R57). -/
abbrev RspWord := BitVec 66

/-- The two operations, the whole command set (R53). -/
inductive Op where
  | load
  | store
deriving DecidableEq, Repr

/-- A request, a record of four fields (R54). The width field is the number of bits itself, so an invalid width
such as 24 can be presented. `wdata` is there on a load too. -/
structure Request where
  op    : Op
  width : BitVec 8
  addr  : Addr
  wdata : Word
deriving DecidableEq, Repr

end Sys2Proof
end

