-- ==== Sys2Proof/Config.lean ====
section
/-! DEFINITION. The two parameters of one instance of the block, CAPACITY and BASE_ADDRESS, and their reference
values (spec 00_scope.md R6 to R8). -/

namespace Sys2Proof

/-- The configuration of one instance, fixed for its whole life (R8, R16). -/
structure Config where
  /-- `CAPACITY`, the number of 8-bit cells of the storage array (R6). -/
  capacity    : Nat
  /-- `BASE_ADDRESS`, the physical address of cell 0 (R7). -/
  baseAddress : Addr
deriving DecidableEq, Repr

/-- The reference configuration: 1 MiB at `0x8000_0000` (R6, R7). That 1 MiB is 2^20 bytes is the spec's own reading
(R6; assumption 6). -/
def Config.reference : Config where
  capacity    := 0x100000
  baseAddress := 0x80000000#64

end Sys2Proof
end

