-- ==== Sys2Proof/Syntax.lean ====
section
/-! DEFINITION. The eight operations with a valid width, one constructor per row of spec/opcode_table.json
(spec 30_encoding.md R58). A request with an invalid width has no row and no mnemonic (R66): the decoder rejects it by
name and the step answers it. -/

namespace Sys2Proof

/-- The eight rows of the opcode map (R58). A load carries the `wdata` lines of its request, which it ignores (R54), so
that no bit of a request is lost between the word and the instruction. -/
inductive Instr where
  /-- `LOAD8 addr` (R71). -/
  | load8   (addr : Addr) (wdata : Word)
  /-- `LOAD16 addr` (R72). -/
  | load16  (addr : Addr) (wdata : Word)
  /-- `LOAD32 addr` (R73). -/
  | load32  (addr : Addr) (wdata : Word)
  /-- `LOAD64 addr` (R74). -/
  | load64  (addr : Addr) (wdata : Word)
  /-- `STORE8 addr, value` (R78). -/
  | store8  (addr : Addr) (value : Word)
  /-- `STORE16 addr, value` (R79). -/
  | store16 (addr : Addr) (value : Word)
  /-- `STORE32 addr, value` (R80). -/
  | store32 (addr : Addr) (value : Word)
  /-- `STORE64 addr, value` (R81). -/
  | store64 (addr : Addr) (value : Word)
deriving DecidableEq, Repr

end Sys2Proof
end

