-- ==== Sys2Proof/WellFormed.lean ====
section
/-! DEFINITION. What is well formed: a configuration (spec 00_scope.md R9), an access width (30_encoding.md R59, R63),
a width the port can present (R54), and an instruction. -/

namespace Sys2Proof

/-- R9: every cell has a physical address that 64 bits can name; the sum is taken in unbounded integers. -/
def Config.wf (c : Config) : Bool :=
  decide (c.baseAddress.toNat + c.capacity ≤ 2 ^ 64)

/-- R44, R63: the access widths are 8, 16, 32 and 64, and any other number is invalid input. -/
def validWidth (width : Nat) : Bool :=
  width == 8 || width == 16 || width == 32 || width == 64

/-- R54: the width field has `WBITS` = 8 bits, so a width of 256 or more cannot be presented on the port. -/
def presentableWidth (width : Nat) : Bool :=
  decide (width < 2 ^ 8)

/-- Every field of an instruction takes every value of its 64 bits (R54, R60), so no term of `Instr` is ill formed. An
address outside the window is a legal operand, answered with an error (R29). -/
def Instr.wf : Instr → Bool
  | .load8 _ _   => true
  | .load16 _ _  => true
  | .load32 _ _  => true
  | .load64 _ _  => true
  | .store8 _ _  => true
  | .store16 _ _ => true
  | .store32 _ _ => true
  | .store64 _ _ => true

end Sys2Proof
end

