-- ==== Sys2Proof/Decode.lean ====
section
/-! DEFINITION. The packed request word, its fields, the decoder over the opcode map and the encoder
(spec 30_encoding.md R54, R55, R58, R62, R63). -/

namespace Sys2Proof

/-- `REQ[136]` (R55). -/
def opField (w : ReqWord) : Op :=
  if w.getLsbD 136 then .store else .load

/-- `REQ[135:128]` (R55). -/
def widthField (w : ReqWord) : BitVec 8 := w.extractLsb' 128 8

/-- `REQ[127:64]` (R55). -/
def addrField (w : ReqWord) : Addr := w.extractLsb' 64 64

/-- `REQ[63:0]` (R55). -/
def wdataField (w : ReqWord) : Word := w.extractLsb' 0 64

/-- `CMD = REQ[136:128]`, the nine bits the opcode map is over (R55). -/
def cmdField (w : ReqWord) : Cmd := w.extractLsb' 128 9

/-- The four fields of a request word (R55). -/
def Request.unpack (w : ReqWord) : Request where
  op    := opField w
  width := widthField w
  addr  := addrField w
  wdata := wdataField w

/-- The code of the operation: 0 is `load`, 1 is `store` (R54). -/
def Op.code : Op → BitVec 1
  | .load  => 0#1
  | .store => 1#1

/-- `REQ = {op, width, addr, wdata}` (R55). -/
def Request.pack (r : Request) : ReqWord :=
  r.op.code ++ r.width ++ r.addr ++ r.wdata

/-- Why the decoder rejects a word. -/
inductive DecodeError where
  /-- No row of the opcode map matches: the width is not 8, 16, 32 or 64 (R62, R63). The step answers such a request
  with the block's error `InvalidWidth`; nothing stops. -/
  | invalidWidth
deriving DecidableEq, Repr

/-- R62: compare `CMD` with the eight rows of R58, all nine bits; total on all 2^137 words. -/
def decode (w : ReqWord) : Except DecodeError Instr :=
  if cmdField w = 0x008#9 then .ok (.load8 (addrField w) (wdataField w))
  else if cmdField w = 0x010#9 then .ok (.load16 (addrField w) (wdataField w))
  else if cmdField w = 0x020#9 then .ok (.load32 (addrField w) (wdataField w))
  else if cmdField w = 0x040#9 then .ok (.load64 (addrField w) (wdataField w))
  else if cmdField w = 0x108#9 then .ok (.store8 (addrField w) (wdataField w))
  else if cmdField w = 0x110#9 then .ok (.store16 (addrField w) (wdataField w))
  else if cmdField w = 0x120#9 then .ok (.store32 (addrField w) (wdataField w))
  else if cmdField w = 0x140#9 then .ok (.store64 (addrField w) (wdataField w))
  else .error .invalidWidth

/-- The request that presents an instruction: the columns `op` and `width` of R58 and the two operand fields. -/
def Instr.request : Instr → Request
  | .load8 a d   => ⟨.load, 8#8, a, d⟩
  | .load16 a d  => ⟨.load, 16#8, a, d⟩
  | .load32 a d  => ⟨.load, 32#8, a, d⟩
  | .load64 a d  => ⟨.load, 64#8, a, d⟩
  | .store8 a v  => ⟨.store, 8#8, a, v⟩
  | .store16 a v => ⟨.store, 16#8, a, v⟩
  | .store32 a v => ⟨.store, 32#8, a, v⟩
  | .store64 a v => ⟨.store, 64#8, a, v⟩

/-- The request word of an instruction. -/
def encode (i : Instr) : ReqWord := i.request.pack

/-- The request word whose bits are the number `w`, bit 0 being `REQ[0]` (the numbering of spec/opcode_table.json's
`match` and `mask`, R62). The port has 137 lines, so bits from 137 up name nothing. -/
def reqWordOfNat (w : Nat) : ReqWord := BitVec.ofNat 137 w

/-- The instruction this decoder reads from a table word. All requests have one length (R68), so `nbits` does not
enter: every bit from `nbits` up is zero in `w` itself. -/
def decodeTableWord (nbits w : Nat) : Option Instr :=
  let _ := nbits
  match decode (reqWordOfNat w) with
  | .ok i    => some i
  | .error _ => none

end Sys2Proof
end

