-- ==== Sys2Proof/Machine/State.lean ====
section
/-! DEFINITION. The state of the block: the storage array, with the instance's configuration and the two sides of the
one port beside it; the block's errors and responses; the state at creation (spec 10_state.md R13 to R27,
30_encoding.md R56, 60_exceptions.md R83). -/

namespace Sys2Proof.Machine

/-- The two errors, a closed enumeration (R83). An error is a bare value and records nothing (R87). -/
inductive AccessError where
  /-- Some byte of the access span lies outside the array (R84). -/
  | outOfRange
  /-- The width is not one of the four (R85). -/
  | invalidWidth
deriving DecidableEq, Repr

/-- The response to one request, the sum type of R56: no value exists where none is defined. -/
inductive Response where
  /-- `Ok(v)`, a successful load. -/
  | okValue (v : Word)
  /-- `Ok`, a successful store. -/
  | ok
  /-- `Err(E)`. -/
  | err (e : AccessError)
deriving DecidableEq, Repr

/-- Reasons the machine stops. The block itself has none: its errors are responses (R83, R92). -/
inductive Fault where
  /-- Raised by `State.loadSpan` and `State.storeSpan` when they are given a span that is not inside the index set of
  the array: no such cell exists (R13, R36). Safe: it stops where the spec gives no meaning. The operations
  establish the bound before they hand over the array (R11, R37), so no step of the machine raises it. -/
  | noSuchCell
deriving DecidableEq, Repr

/-- Reasons an instruction has no meaning here. -/
inductive Refusal where
  /-- The form of a rejected arm of `exec`. Safe. No arm raises it: every row of the opcode table has its meaning. -/
  | notModelled (mnemonic : String)
deriving DecidableEq, Repr

/-- The storage array `mem` (R13): cell `i`, the cell at offset `i`, is listed under the key `i`. A cell that is not
listed holds what creation left in it. -/
abbrev Memory := List Host.Cell

/-- What an unlisted cell reads as: creation leaves every cell `0x00` (R24). -/
abbrev Memory.unlisted : Byte := 0x00#8

/-- The canonical form of the array: offsets strictly rising, and no entry equal to what an unlisted cell reads as, so
that equal arrays are equal data (R13: two states are equal exactly when every cell is equal). -/
abbrev Memory.wf (m : Memory) : Prop :=
  List.Pairwise (fun p q : Host.Cell => p.1 < q.1) m ∧ ∀ p ∈ m, p.2 ≠ Memory.unlisted

/-- The machine. The block's own state is `mem` alone (R26). The other three fields are the model's: the step is a
function of the state only, so the instance's parameters and the two sides of the port stand in it (assumptions 1, 2
and 3). -/
structure State where
  /-- `CAPACITY` and `BASE_ADDRESS` of this instance; nothing ever writes it (R8, R16). -/
  config   : Config
  /-- The storage array (R13). -/
  mem      : Memory
  /-- The requester's stream: the requests not yet taken, in issue order, the next one first (R48, R106). -/
  requests : List ReqWord
  /-- The response to the latest request; none before the first (R25, R57, R110). -/
  response : Option Response
deriving DecidableEq, Repr

/-- Creation of a block with configuration `c`: every cell zero, nothing asked, nothing answered (R24, R101). -/
def State.create (c : Config) : State where
  config   := c
  mem      := []
  requests := []
  response := none

/-- The machine right after reset, which is creation (R101), in the reference configuration. -/
def State.reset : State := State.create Config.reference

end Sys2Proof.Machine
end

