-- ==== Sys2Proof/Machine/Operands.lean ====
section
/-! DEFINITION. From an operation's arguments to the access span: the byte count of a width, the address-offset decoder,
the bounds validator with its fixed-width forms, and the bytes of a value (spec 30_encoding.md R59, 20_memory.md R30 to
R38, 60_exceptions.md R89). -/

namespace Sys2Proof.Machine

/-- The width-to-byte-count table; for any other width `bytes` is undefined (R59). -/
def bytesOf (width : Nat) : Option Nat :=
  if width = 8 then some 1
  else if width = 16 then some 2
  else if width = 32 then some 4
  else if width = 64 then some 8
  else none

/-- The address-offset decoder: an offset, or none for "below base", found by an explicit unsigned comparison (R30,
R31). -/
def offsetOf (c : Config) (a : Addr) : Option Nat :=
  if a.toNat < c.baseAddress.toNat then none
  else some (a.toNat - c.baseAddress.toNat)

/-- An access span: the `n` consecutive cells from `off` (R34). -/
structure Span where
  off : Nat
  n   : Nat
deriving DecidableEq, Repr

/-- The span lies in the index set `[0, CAPACITY)` of the array (R13, R34). -/
abbrev Span.inArray (sp : Span) (c : Config) : Prop := sp.off + sp.n ≤ c.capacity

/-- The bounds validator: the width first (R89), then the whole span, in unbounded integers (R35). The verdict depends
on the address, the width and the two constants only (R37). -/
def validate (c : Config) (a : Addr) (width : Nat) : Except AccessError Span :=
  match bytesOf width with
  | none   => .error .invalidWidth
  | some n =>
    match offsetOf c a with
    | none     => .error .outOfRange
    | some off => if off + n ≤ c.capacity then .ok ⟨off, n⟩ else .error .outOfRange

/-- R37 form A: a 64-bit compare; the subtraction is guarded by the first conjunct, `CAPACITY - n` by the second. -/
def inRangeA (c : Config) (a : Addr) (n : Nat) : Bool :=
  decide (c.baseAddress ≤ a) && decide (n ≤ c.capacity) &&
    decide (a - c.baseAddress ≤ BitVec.ofNat 64 (c.capacity - n))

/-- R37 form B: a 65-bit add. -/
def inRangeB (c : Config) (a : Addr) (n : Nat) : Bool :=
  decide (c.baseAddress ≤ a) &&
    decide ((a - c.baseAddress).setWidth 65 + BitVec.ofNat 65 n ≤ BitVec.ofNat 65 c.capacity)

/-- The form R37 warns of, which adds in 64 bits and can wrap. The machine does not use it. -/
def inRangeWrapping (c : Config) (a : Addr) (n : Nat) : Bool :=
  decide (c.baseAddress ≤ a) &&
    decide ((a - c.baseAddress) + BitVec.ofNat 64 n ≤ BitVec.ofNat 64 c.capacity)

/-- Byte `k` of a value, `v[8k+7:8k]` (R38). -/
def byteOf (v : Word) (k : Nat) : Byte := v.extractLsb' (8 * k) 8

end Sys2Proof.Machine
end

