-- ==== Sys2Proof/Machine/Ops.lean ====
section
/-! DEFINITION. The operations over the state: one cell of the array, the unpacker and the packer, the response, raising
an error, the read-write arbiter, and the one operation every instruction is (spec 20_memory.md R39, R40, 40_load.md
R69, 41_store.md R76, 60_exceptions.md R90, 70_reset_and_hazards.md R106, R107). -/

namespace Sys2Proof.Machine

/-- `mem[i]` (R13). -/
def Memory.read : Memory → Nat → Byte
  | [], _               => Memory.unlisted
  | (a, b) :: rest, i => if a = i then b else Memory.read rest i

/-- The array with no entry for cell `i`. -/
def Memory.clear (m : Memory) (i : Nat) : Memory := m.filter (fun p => p.1 != i)

/-- The array with an entry put in at its place in the order. -/
def Memory.place : Memory → Nat → Byte → Memory
  | [], i, b             => [(i, b)]
  | (a, x) :: rest, i, b =>
    if i < a then (i, b) :: (a, x) :: rest else (a, x) :: Memory.place rest i b

/-- `mem[i] <- b`, in canonical form: writing what an unlisted cell reads as removes the entry. -/
def Memory.write (m : Memory) (i : Nat) (b : Byte) : Memory :=
  if b = Memory.unlisted then m.clear i else (m.clear i).place i b

/-- The unpacker's loop: for `k` from 0, the byte at `off + k`, shifted left by `8k`, is ORed into an accumulator that
starts at 0 (R39). Zero-extended: the bits above the bytes read stay zero (R42). -/
def Memory.gather (m : Memory) (off : Nat) : Nat → Word
  | 0     => 0#64
  | k + 1 => Memory.gather m off k ||| ((m.read (off + k)).setWidth 64 <<< (8 * k))

/-- The packer's loop: for `k` from 0, byte `(v >> 8k) & 0xFF` is written at `off + k` (R40). -/
def Memory.scatter (m : Memory) (off : Nat) (v : Word) : Nat → Memory
  | 0     => m
  | k + 1 => (Memory.scatter m off v k).write (off + k) (byteOf v k)

/-- The response of the operation in hand (R110). -/
def State.respond (s : State) (r : Response) : State := { s with response := some r }

/-- The array after a store. -/
def State.setMem (s : State) (m : Memory) : State := { s with mem := m }

/-- `raise E`: the response carries the error and no value, and nothing else changes. It is not a trap: nothing is saved
and control goes nowhere (R11, R90, R92). The block is at once ready for the next operation, so there is nothing to
return from (R94). -/
def State.raise (s : State) (e : AccessError) : State := s.respond (.err e)

/-- The unpacker holding the array for a whole span: `MemRead`, then `Ok(value)` (R39, R69). -/
def State.loadSpan (s : State) (sp : Span) : Host.Outcome State Fault Refusal :=
  if sp.inArray s.config then .next (s.respond (.okValue (s.mem.gather sp.off sp.n)))
  else .fault .noSuchCell

/-- The packer holding the array for a whole span: `MemWrite`, then `Ok` (R40, R76). -/
def State.storeSpan (s : State) (sp : Span) (v : Word) : Host.Outcome State Fault Refusal :=
  if sp.inArray s.config then .next ((s.setMem (s.mem.scatter sp.off v sp.n)).respond .ok)
  else .fault .noSuchCell

/-- What the arbiter decides for the length of one operation (R107). -/
inductive Grant where
  /-- The checks failed: the array is granted to nobody. -/
  | refused (e : AccessError)
  /-- The array is the unpacker's for the reads of a load. -/
  | unpacker (sp : Span)
  /-- The array is the packer's for the writes of a store. -/
  | packer (sp : Span)
deriving DecidableEq, Repr

/-- The read-write arbiter: the grant is made after the checks have passed, for one whole operation, and it keeps no
state (R107). -/
def arbiter (op : Op) (verdict : Except AccessError Span) : Grant :=
  match verdict, op with
  | .error e, _     => .refused e
  | .ok sp, .load   => .unpacker sp
  | .ok sp, .store  => .packer sp

/-- One operation, `load(addr, width)` (R69) or `store(addr, width, value)` (R76), for any width (a natural number,
R53): validate, then hand the array over, then respond. A load is given the value lines and ignores them (R54). -/
def operate (op : Op) (a : Addr) (width : Nat) (v : Word) (s : State) : Host.Outcome State Fault Refusal :=
  match arbiter op (validate s.config a width) with
  | .refused e   => .next (s.raise e)
  | .unpacker sp => s.loadSpan sp
  | .packer sp   => s.storeSpan sp v

/-- Taking the next request from the port: one at a time, in issue order (R106). None when nothing is asked. -/
def State.take (s : State) : Option (ReqWord × State) :=
  match s.requests with
  | []        => none
  | w :: rest => some (w, { s with requests := rest })

/-- A step with no request on the port: nothing in the block happens between requests (R93). -/
def idle (s : State) : Host.Outcome State Fault Refusal := .next s

/-- The answer to a word that no row of the opcode map matches: respond `InvalidWidth` and change nothing (R62, R63). -/
def answerInvalidWidth (s : State) : Host.Outcome State Fault Refusal := .next (s.raise .invalidWidth)

/-- The host's side of the port: the requester issues one more request (R114). -/
def State.submit (s : State) (w : ReqWord) : State := { s with requests := s.requests ++ [w] }

/-- The stream with a word put where the next request is taken from. -/
def State.issueNext (s : State) (w : ReqWord) : State := { s with requests := w :: s.requests }

end Sys2Proof.Machine
end

