-- ==== Sys2Proof/Machine/Load.lean ====
section
/-! DEFINITION. The four forms of `load` (spec 40_load.md R71 to R74). -/

namespace Sys2Proof.Machine

/-- `LOAD8 addr`, that is `load(addr, 8)` (R71); `wdata` ignored. -/
def execLoad8 (a : Addr) (wdata : Word) (s : State) : Host.Outcome State Fault Refusal :=
  operate .load a 8 wdata s

/-- `LOAD16 addr`, that is `load(addr, 16)` (R72); `wdata` ignored. -/
def execLoad16 (a : Addr) (wdata : Word) (s : State) : Host.Outcome State Fault Refusal :=
  operate .load a 16 wdata s

/-- `LOAD32 addr`, that is `load(addr, 32)` (R73); `wdata` ignored. -/
def execLoad32 (a : Addr) (wdata : Word) (s : State) : Host.Outcome State Fault Refusal :=
  operate .load a 32 wdata s

/-- `LOAD64 addr`, that is `load(addr, 64)` (R74); `wdata` ignored. -/
def execLoad64 (a : Addr) (wdata : Word) (s : State) : Host.Outcome State Fault Refusal :=
  operate .load a 64 wdata s

end Sys2Proof.Machine
end

