-- ==== Sys2Proof/Machine/Store.lean ====
section
/-! DEFINITION. The four forms of `store` (spec 41_store.md R78 to R81). -/

namespace Sys2Proof.Machine

/-- `STORE8 addr, value`, that is `store(addr, 8, value)` (R78). -/
def execStore8 (a : Addr) (v : Word) (s : State) : Host.Outcome State Fault Refusal :=
  operate .store a 8 v s

/-- `STORE16 addr, value`, that is `store(addr, 16, value)` (R79). -/
def execStore16 (a : Addr) (v : Word) (s : State) : Host.Outcome State Fault Refusal :=
  operate .store a 16 v s

/-- `STORE32 addr, value`, that is `store(addr, 32, value)` (R80). -/
def execStore32 (a : Addr) (v : Word) (s : State) : Host.Outcome State Fault Refusal :=
  operate .store a 32 v s

/-- `STORE64 addr, value`, that is `store(addr, 64, value)` (R81). -/
def execStore64 (a : Addr) (v : Word) (s : State) : Host.Outcome State Fault Refusal :=
  operate .store a 64 v s

end Sys2Proof.Machine
end

