-- ==== Sys2Proof/Machine/Dispatch.lean ====
section
/-! DEFINITION. One arm per row of the opcode map (spec 30_encoding.md R58), each one call of its meaning. -/

namespace Sys2Proof.Machine

def exec (i : Instr) (s : State) : Host.Outcome State Fault Refusal :=
  match i with
  | .load8 a d => Sys2Proof.Machine.execLoad8 a d s
  | .load16 a d => Sys2Proof.Machine.execLoad16 a d s
  | .load32 a d => Sys2Proof.Machine.execLoad32 a d s
  | .load64 a d => Sys2Proof.Machine.execLoad64 a d s
  | .store8 a v => Sys2Proof.Machine.execStore8 a v s
  | .store16 a v => Sys2Proof.Machine.execStore16 a v s
  | .store32 a v => Sys2Proof.Machine.execStore32 a v s
  | .store64 a v => Sys2Proof.Machine.execStore64 a v s

end Sys2Proof.Machine
end

