-- ==== Sys2Proof/Machine/Step.lean ====
section
/-! DEFINITION. One step of the machine: one operation from (state, request) to (state, response)
(spec 20_memory.md R48, 30_encoding.md R62, 70_reset_and_hazards.md R106, R112). -/

namespace Sys2Proof.Machine

/-- Take the next request; if a row of the opcode map matches, run that row's rule; if none does, answer `InvalidWidth`
(R62). With no request on the port nothing happens (R93). -/
def step (s : State) : Host.Outcome State Fault Refusal :=
  match s.take with
  | none         => idle s
  | some (w, s') =>
    match decode w with
    | .ok i                => exec i s'
    | .error .invalidWidth => answerInvalidWidth s'

/-- `s` with the request whose bits are `w` at the head of the requester's stream, where the next step takes it from
(assumption 2 says how requests come to the block). -/
def State.withFetchWord (s : State) (nbits w : Nat) : State :=
  let _ := nbits
  s.issueNext (reqWordOfNat w)

end Sys2Proof.Machine
end

