-- ==== Sys2Proof/Machine/Flags.lean ====
section
/-! DEFINITION. The block has no flags and no condition codes (spec 10_state.md R19). What it signals is the response:
its status code and its packed word (30_encoding.md R56, R57, 60_exceptions.md R86). -/

namespace Sys2Proof.Machine

/-- The status code of a response: `0b00` success, `0b01` `OutOfRange`, `0b10` `InvalidWidth` (R56, R86). -/
def Response.status : Response → BitVec 2
  | .okValue _         => 0b00#2
  | .ok                => 0b00#2
  | .err .outOfRange   => 0b01#2
  | .err .invalidWidth => 0b10#2

/-- The data lines: the value of a successful load; in every other response `ERR_RDATA`, any 64-bit value, which is the
argument `errRdata` under no law (R56; assumption 4). -/
def Response.rdata (errRdata : Word) : Response → Word
  | .okValue v => v
  | .ok        => errRdata
  | .err _     => errRdata

/-- `RSP = {status, rdata}` (R57). -/
def Response.pack (errRdata : Word) (r : Response) : RspWord :=
  r.status ++ r.rdata errRdata

/-- The response word on the port, if a request has been answered. -/
def State.rspWord (errRdata : Word) (s : State) : Option RspWord :=
  s.response.map (Response.pack errRdata)

end Sys2Proof.Machine
end

