-- ==== Sys2Proof/Safety.lean ====
section
/-! DEFINITION. What the claims are said in: the range test as the spec writes it, the invariant of the machine, the
eight forms by width, and the block as two plain functions over the cells, written from the spec without the machine's
operations (spec 20_memory.md R35, R48, 40_load.md R69, 41_store.md R76). -/

namespace Sys2Proof

/-- The offset of an address at or above the base (R30). -/
def Config.index (c : Config) (a : Addr) : Nat := a.toNat - c.baseAddress.toNat

/-- The address that names cell `i` (R13, R32). -/
def Config.addrOf (c : Config) (i : Nat) : Addr := c.baseAddress + BitVec.ofNat 64 i

/-- The bounds check, word for word (R35). -/
abbrev Config.InRange (c : Config) (a : Addr) (n : Nat) : Prop :=
  c.baseAddress.toNat ≤ a.toNat ∧ c.index a + n ≤ c.capacity

/-- The window: the addresses that name a cell (R12, R28). -/
abbrev Config.InWindow (c : Config) (a : Addr) : Prop :=
  c.baseAddress.toNat ≤ a.toNat ∧ a.toNat < c.baseAddress.toNat + c.capacity

/-- The four access widths (R44). -/
inductive Width where
  | w8
  | w16
  | w32
  | w64
deriving DecidableEq, Repr

/-- The width in bits. -/
def Width.bits : Width → Nat
  | .w8  => 8
  | .w16 => 16
  | .w32 => 32
  | .w64 => 64

/-- The bytes moved (R59). -/
def Width.bytes : Width → Nat
  | .w8  => 1
  | .w16 => 2
  | .w32 => 4
  | .w64 => 8

/-- The load of a width. -/
def loadOf (w : Width) (a : Addr) (d : Word) : Instr :=
  match w with
  | .w8  => .load8 a d
  | .w16 => .load16 a d
  | .w32 => .load32 a d
  | .w64 => .load64 a d

/-- The store of a width. -/
def storeOf (w : Width) (a : Addr) (v : Word) : Instr :=
  match w with
  | .w8  => .store8 a v
  | .w16 => .store16 a v
  | .w32 => .store32 a v
  | .w64 => .store64 a v

namespace Machine

/-- A state a run can reach: the configuration is well formed (R9), the array is in its canonical form, and every cell
it lists is a cell of the array (R13). -/
abbrev State.WF (s : State) : Prop :=
  s.config.wf = true ∧ s.mem.wf ∧ ∀ p ∈ s.mem, p.1 < s.config.capacity

/-- The verdict on an operation's arguments, or none for success: the width first (R89), then the range (R35). -/
def Spec.verdict (c : Config) (a : Addr) (width : Nat) : Option AccessError :=
  if width ∉ [8, 16, 32, 64] then some .invalidWidth
  else if a.toNat < c.baseAddress.toNat then some .outOfRange
  else if c.capacity < c.index a + width / 8 then some .outOfRange
  else none

/-- The response to a request over an array with these cells: a load's value is the sum of R39. -/
def Spec.response (c : Config) (cells : Nat → Byte) (r : Request) : Response :=
  match Spec.verdict c r.addr r.width.toNat with
  | some e => .err e
  | none   =>
    match r.op with
    | .store => .ok
    | .load  => .okValue (BitVec.ofNat 64
        (∑ k ∈ Finset.range (r.width.toNat / 8), (cells (c.index r.addr + k)).toNat * 2 ^ (8 * k)))

/-- A request is a successful store whose span holds cell `i`. -/
def Spec.writes (c : Config) (i : Nat) (r : Request) : Bool :=
  decide (r.op = .store) && decide (Spec.verdict c r.addr r.width.toNat = none) &&
    decide (c.index r.addr ≤ i) && decide (i < c.index r.addr + r.width.toNat / 8)

/-- The byte a store puts into cell `i` of its span: `(v >> 8k) & 0xFF` for `k` the cell's place in the span (R40). -/
def Spec.byteFor (c : Config) (i : Nat) (r : Request) : Byte :=
  BitVec.ofNat 8 (r.wdata.toNat / 2 ^ (8 * (i - c.index r.addr)))

/-- The cells after a request (R76). -/
def Spec.cells (c : Config) (cells : Nat → Byte) (r : Request) (i : Nat) : Byte :=
  if Spec.writes c i r then Spec.byteFor c i r else cells i

/-- R48: cell `i` after these requests in issue order: the byte of the latest successful store whose span holds it, or
what it held before if there is none. -/
def Spec.latest (c : Config) (before : Byte) (i : Nat) (rs : List Request) : Byte :=
  match rs.reverse.find? (Spec.writes c i) with
  | some r => Spec.byteFor c i r
  | none   => before

end Machine

end Sys2Proof
end

