-- ==== Sys2Proof/Certificates/Slice0/Obligations.lean ====
section
/-! DEFINITION. The statements for the provers. Each docstring names the rule of spec/ that its statement is about, and the
log entry where a clause is the model's choice. A request is pending when it stands at the head of `requests`, and its
response is what stands in `response` after its step: the model's port (assumptions 2 and 3). -/

open Sys2Proof Sys2Proof.Machine

/-! ### Creation, the invariant, the step -/

/-- R24: creation zero-fills the array; a load in range of cells that all read `0x00` returns zero, in every state; and
after any stream of requests from creation so does a load of a valid span that no successful store of the stream has
touched. -/
def Obligations.CreationZeroFillsTheArray : Prop :=
  (∀ (c : Config) (i : Nat), i < c.capacity → (State.create c).mem.read i = 0x00#8) ∧
  (∀ (s : State) (w : Width) (a : Addr) (d : Word), s.config.InRange a w.bytes →
    (∀ k, k < w.bytes → s.mem.read (s.config.index a + k) = 0x00#8) →
    exec (loadOf w a d) s = .next { s with response := some (.okValue 0#64) }) ∧
  ∀ (c : Config) (ws : List ReqWord) (t : State) (w : Width) (a : Addr) (d : Word),
    core.run ws.length { State.create c with requests := ws } = .next t → c.InRange a w.bytes →
    (∀ k, k < w.bytes → ∀ x ∈ ws, Spec.writes c (c.index a + k) (Request.unpack x) = false) →
    exec (loadOf w a d) t = .next { t with response := some (.okValue 0#64) }

/-- Reset is creation in the reference configuration and meets the invariant, as does creation in every well-formed
configuration (00_scope.md section 3, 10_state.md section 3). Not the source's but presumed or chosen: that 1 MiB is
2^20 cells (assumption 6), that no request is pending and no response given (assumptions 2 and 3), and the canonical
form of the array that the invariant asks for (assumption 9). -/
def Obligations.ResetMeetsTheInvariant : Prop :=
  State.reset.WF ∧
  State.reset.config.capacity = 2 ^ 20 ∧ State.reset.config.baseAddress = 0x80000000#64 ∧
  State.reset.requests = [] ∧ State.reset.response = none ∧
  ∀ c : Config, c.wf = true → (State.create c).WF

/-- The array lists only cells of the array and the configuration stays well formed (10_state.md section 1, 00_scope.md
section 3), and the list keeps its canonical form, in every step from every state that has it so. The canonical form is
the model's choice (assumption 9); no rule gives it. -/
def Obligations.StepKeepsTheInvariant : Prop :=
  ∀ s t : State, s.WF → step s = .next t → t.WF

/-- R15, R16: no step changes the parameters, so the index set of the array is the same at every step. -/
def Obligations.StepKeepsTheConfiguration : Prop :=
  ∀ s t : State, step s = .next t → t.config = s.config

/-- R83, R110: every request gets exactly one response, which fits its operation, and the step takes that request and no
other off the stream. -/
def Obligations.EveryRequestGetsOneResponse : Prop :=
  ∀ (s : State) (w : ReqWord) (rest : List ReqWord), s.requests = w :: rest →
    ∃ (t : State) (r : Response), step s = .next t ∧ t.requests = rest ∧ t.response = some r ∧
      ((∃ e, r = .err e) ∨ (opField w = .load ∧ ∃ v, r = .okValue v) ∨ (opField w = .store ∧ r = .ok))

/-- R36, R91: every operation and every step is total; in particular the array is never indexed outside its index set
(the fault `noSuchCell`, the model's choice of assumption 8, is never raised). -/
def Obligations.NothingStopsTheMachine : Prop :=
  (∀ (i : Instr) (s : State), ∃ t, exec i s = .next t) ∧ ∀ s : State, ∃ t, step s = .next t

/-- R62: a request word that decodes to an instruction is run as that instruction, once it is off the stream. -/
def Obligations.StepRunsTheDecodedInstruction : Prop :=
  ∀ (s : State) (w : ReqWord) (rest : List ReqWord) (i : Instr),
    s.requests = w :: rest → decode w = .ok i → i.wf = true →
    step s = exec i { s with requests := rest }

/-- Every width other than 8, 16, 32 and 64 is answered with `InvalidWidth`, whatever the other fields hold, and changes
nothing; that is every value of the width field but four (30_encoding.md section 4). That the error is `InvalidWidth`
for an address outside the window too is the spec's own decision D6 (assumption 10). -/
def Obligations.InvalidWidthIsAnsweredAndChangesNothing : Prop :=
  (∀ (s : State) (w : ReqWord) (rest : List ReqWord), s.requests = w :: rest →
    (widthField w).toNat ∉ [8, 16, 32, 64] →
    step s = .next { s with requests := rest, response := some (.err .invalidWidth) }) ∧
  ∀ f : BitVec 8, f.toNat ∉ [8, 16, 32, 64] ↔ f ≠ 8#8 ∧ f ≠ 16#8 ∧ f ≠ 32#8 ∧ f ≠ 64#8

/-- The abstract operations take any natural number as their width (one of 256 or more cannot be presented on the port): a
width that is not one of the four gives `InvalidWidth`, whatever the address, the value and the array
(60_exceptions.md section 1). That it does so for an address outside the window too is the spec's own decision D6
(assumption 10). -/
def Obligations.EveryOtherWidthOfAnOperationIsInvalid : Prop :=
  ∀ (op : Op) (a : Addr) (width : Nat) (v : Word) (s : State), width ∉ [8, 16, 32, 64] →
    operate op a width v s = .next { s with response := some (.err .invalidWidth) }

/-- With no request on the port a step changes nothing (the model's reading of R93; assumption 2). -/
def Obligations.IdleBlockStaysAsItIs : Prop :=
  ∀ s : State, s.requests = [] → step s = .next s

/-- The table word of an instruction, put where the next request is taken from, is run by the very next step
(assumption 2). -/
def Obligations.PlacedRequestRunsNext : Prop :=
  ∀ (s : State) (i : Instr) (nbits : Nat), i.wf = true →
    decodeTableWord nbits (encode i).toNat = some i ∧
    step (s.withFetchWord nbits (encode i).toNat) = exec i s

/-! ### Encodings -/

/-- R58, R62: decoding an encoded instruction gives it back, every operand at every value, and every word that decodes
is the encoding of what it decodes to. -/
def Obligations.DecodeAndEncodeAgree : Prop :=
  (∀ i : Instr, i.wf = true → decode (encode i) = .ok i) ∧
  ∀ (w : ReqWord) (i : Instr), decode w = .ok i → encode i = w

/-- Words of 95_test_vectors.md section 5, written out, decode to what the table there says. -/
def Obligations.SampleRequestWordsDecode : Prop :=
  decode 0x00800000000800000000000000000000000#137 = .ok (.load8 0x80000000#64 0#64) ∧
  decode 0x01000000000800FFFFF0000000000000000#137 = .ok (.load16 0x800FFFFF#64 0#64) ∧
  decode 0x0400000000080000000FFFFFFFFFFFFFFFF#137 = .ok (.load64 0x80000000#64 0xFFFFFFFFFFFFFFFF#64) ∧
  decode 0x1080000000080000000000000000000000F#137 = .ok (.store8 0x80000000#64 0xF#64) ∧
  decode 0x120000000008000000800000000DEADBEEF#137 = .ok (.store32 0x80000008#64 0xDEADBEEF#64) ∧
  decode 0x14000000000800000000102030405060708#137 = .ok (.store64 0x80000000#64 0x0102030405060708#64) ∧
  decode 0x01800000000800000000000000000000000#137 = .error .invalidWidth ∧
  decode 0x1FF00000000800000000000000000000000#137 = .error .invalidWidth

/-- R62: a row matches when `REQ & mask == match`, `match` and `mask` written as 35 hexadecimal digits; a word that no row
matches has an invalid width. -/
def Obligations.DecoderIsTheOpcodeTable : Prop :=
  ∀ w : ReqWord,
    let mask : ReqWord := 0x1FF00000000000000000000000000000000#137
    let a : Addr := addrField w
    let d : Word := wdataField w
    decode w =
      if w &&& mask = 0x00800000000000000000000000000000000#137 then .ok (.load8 a d)
      else if w &&& mask = 0x01000000000000000000000000000000000#137 then .ok (.load16 a d)
      else if w &&& mask = 0x02000000000000000000000000000000000#137 then .ok (.load32 a d)
      else if w &&& mask = 0x04000000000000000000000000000000000#137 then .ok (.load64 a d)
      else if w &&& mask = 0x10800000000000000000000000000000000#137 then .ok (.store8 a d)
      else if w &&& mask = 0x11000000000000000000000000000000000#137 then .ok (.store16 a d)
      else if w &&& mask = 0x12000000000000000000000000000000000#137 then .ok (.store32 a d)
      else if w &&& mask = 0x14000000000000000000000000000000000#137 then .ok (.store64 a d)
      else .error .invalidWidth

/-- R55: `REQ = {op, width, addr, wdata}`, and `CMD = {op, width}` with `CMD[8] = op` and `CMD[7:0] = width`; which row a word
matches, if any, depends on `CMD` alone. -/
def Obligations.RequestWordLayout : Prop :=
  (∀ r : Request,
    r.pack.toNat = r.op.code.toNat * 2 ^ 136 + r.width.toNat * 2 ^ 128 + r.addr.toNat * 2 ^ 64 + r.wdata.toNat ∧
    (cmdField r.pack).extractLsb' 8 1 = r.op.code ∧ (cmdField r.pack).extractLsb' 0 8 = r.width ∧
    Request.unpack r.pack = r) ∧
  (∀ w : ReqWord, (Request.unpack w).pack = w) ∧
  ∀ w w' : ReqWord, cmdField w = cmdField w' →
    (decode w = .error .invalidWidth ↔ decode w' = .error .invalidWidth) ∧
    ∀ i i', decode w = .ok i → decode w' = .ok i' →
      i.request.op = i'.request.op ∧ i.request.width = i'.request.width

/-- R86, on the lines of R56 and R57: `RSP[65:64]` is the status code, never `0b11`; and `RSP[63:0]` is the value of a
successful load. -/
def Obligations.ResponseWordLayout : Prop :=
  ∀ errRdata : Word,
    (∀ v : Word, ((Response.okValue v).pack errRdata).extractLsb' 64 2 = 0b00#2 ∧
      ((Response.okValue v).pack errRdata).extractLsb' 0 64 = v) ∧
    (Response.ok.pack errRdata).extractLsb' 64 2 = 0b00#2 ∧
    ((Response.err .outOfRange).pack errRdata).extractLsb' 64 2 = 0b01#2 ∧
    ((Response.err .invalidWidth).pack errRdata).extractLsb' 64 2 = 0b10#2 ∧
    ∀ r : Response, (r.pack errRdata).extractLsb' 64 2 ≠ 0b11#2

/-- In a response that carries no value (a store's, or an error) the data lines are whatever `errRdata` is, so any value
at all can stand on them. Left free by 30_encoding.md section 2; that they are an argument of the response word is the
model's choice (assumption 4). -/
def Obligations.DataLinesWithoutAValueAreFree : Prop :=
  (∀ errRdata : Word, (Response.ok.pack errRdata).extractLsb' 0 64 = errRdata ∧
    ∀ e : AccessError, ((Response.err e).pack errRdata).extractLsb' 0 64 = errRdata) ∧
  ∀ (s : State) (r : Response) (x : Word), s.response = some r → (∀ v, r ≠ .okValue v) →
    ∃ errRdata, (s.rspWord errRdata).map (fun p => p.extractLsb' 0 64) = some x

/-- R59: the width-to-byte-count table is the whole domain of `bytes`; R58: for a valid width it is `width[6:3]`. -/
def Obligations.ByteCountTable : Prop :=
  (∀ width n : Nat, bytesOf width = some n ↔
    (width = 8 ∧ n = 1) ∨ (width = 16 ∧ n = 2) ∨ (width = 32 ∧ n = 4) ∨ (width = 64 ∧ n = 8)) ∧
  ∀ (f : BitVec 8) (n : Nat), bytesOf f.toNat = some n → (f.extractLsb' 3 4).toNat = n ∧ n = f.toNat / 8

/-! ### The decoder and the validator -/

/-- R31: below the base there is no offset, found by a comparison; the 64-bit subtraction would wrap to a huge value; the
outcome for every valid width is `OutOfRange`. -/
def Obligations.BelowBaseIsAnExplicitError : Prop :=
  ∀ (c : Config) (a : Addr), a.toNat < c.baseAddress.toNat →
    offsetOf c a = none ∧
    (a - c.baseAddress).toNat = 2 ^ 64 - (c.baseAddress.toNat - a.toNat) ∧
    ∀ w : Width, validate c a w.bits = .error .outOfRange

/-- R30: at or above the base the offset is the difference, with no borrow, below `2^64 - BASE_ADDRESS`. -/
def Obligations.OffsetIsTheDifference : Prop :=
  ∀ (c : Config) (a : Addr), c.baseAddress.toNat ≤ a.toNat →
    offsetOf c a = some (a.toNat - c.baseAddress.toNat) ∧
    (a - c.baseAddress).toNat = a.toNat - c.baseAddress.toNat ∧
    a.toNat - c.baseAddress.toNat < 2 ^ 64 - c.baseAddress.toNat

/-- R32: the map from window addresses to cells is one to one and onto, and nothing outside the window names a cell. -/
def Obligations.WindowNamesCellsOneToOne : Prop :=
  ∀ c : Config, c.wf = true →
    (∀ i, i < c.capacity → c.InWindow (c.addrOf i) ∧ offsetOf c (c.addrOf i) = some i) ∧
    (∀ (a b : Addr) (i : Nat), offsetOf c a = some i → offsetOf c b = some i → a = b) ∧
    ∀ (a : Addr) (i : Nat), offsetOf c a = some i → (i < c.capacity ↔ c.InWindow a)

/-- R35: the bounds check, in unbounded integers, and the consequences the rule lists. -/
def Obligations.BoundsCheckIsOnTheWholeSpan : Prop :=
  ∀ (c : Config) (w : Width),
    (∀ a : Addr, c.InRange a w.bytes → validate c a w.bits = .ok ⟨c.index a, w.bytes⟩) ∧
    (∀ a : Addr, ¬ c.InRange a w.bytes → validate c a w.bits = .error .outOfRange) ∧
    (∀ a : Addr, w.bytes ≤ c.capacity → a.toNat = c.baseAddress.toNat + c.capacity - w.bytes →
      validate c a w.bits = .ok ⟨c.capacity - w.bytes, w.bytes⟩) ∧
    (∀ a : Addr, c.baseAddress.toNat + c.capacity < a.toNat + w.bytes →
      validate c a w.bits = .error .outOfRange) ∧
    ∀ a : Addr, a.toNat = c.baseAddress.toNat + c.capacity → validate c a w.bits = .error .outOfRange

/-- R37: forms A and B equal the bounds check in every well-formed configuration; the form that adds in 64 bits does for
`BASE_ADDRESS >= 8`, and is wrong for `BASE_ADDRESS = 0`, `CAPACITY = 16` (95_test_vectors.md section 2). -/
def Obligations.FixedWidthFormsAgree : Prop :=
  (∀ (c : Config) (a : Addr) (w : Width), c.wf = true →
    (inRangeA c a w.bytes = true ↔ c.InRange a w.bytes) ∧
    (inRangeB c a w.bytes = true ↔ c.InRange a w.bytes) ∧
    (8 ≤ c.baseAddress.toNat → (inRangeWrapping c a w.bytes = true ↔ c.InRange a w.bytes))) ∧
  inRangeWrapping ⟨16, 0#64⟩ 0xFFFFFFFFFFFFFFFF#64 8 = true ∧
  ¬ Config.InRange ⟨16, 0#64⟩ 0xFFFFFFFFFFFFFFFF#64 8

/-- R29: outside the window the block rejects every access, whatever its width; for a valid width with `OutOfRange`. -/
def Obligations.OutsideTheWindowEveryAccessIsRejected : Prop :=
  (∀ (s : State) (w : ReqWord) (rest : List ReqWord), s.requests = w :: rest →
    ¬ s.config.InWindow (addrField w) →
    ∃ e, step s = .next { s with requests := rest, response := some (.err e) }) ∧
  ∀ (s : State) (w : Width) (a : Addr) (v : Word), ¬ s.config.InWindow a →
    exec (loadOf w a v) s = .next { s with response := some (.err .outOfRange) } ∧
    exec (storeOf w a v) s = .next { s with response := some (.err .outOfRange) }

/-- R43: an access of any valid width may start at any offset as long as its span passes the bounds check. -/
def Obligations.AnyOffsetMayStartAnAccess : Prop :=
  ∀ (s : State) (w : Width) (i : Nat) (v : Word), s.config.wf = true → i + w.bytes ≤ s.config.capacity →
    exec (loadOf w (s.config.addrOf i) v) s =
      .next { s with response := some (.okValue (s.mem.gather i w.bytes)) } ∧
    exec (storeOf w (s.config.addrOf i) v) s =
      .next { s with mem := s.mem.scatter i v w.bytes, response := some .ok }

/-! ### The unpacker and the packer -/

/-- R39: `MemRead(off, n)` is the sum of the bytes at their places, which is the concatenation, most significant byte at
the highest offset; zero-extended to 64 bits (R42). -/
def Obligations.UnpackerAssemblesLittleEndian : Prop :=
  ∀ (m : Memory) (off : Nat),
    (∀ n, n ≤ 8 → (m.gather off n).toNat = ∑ k ∈ Finset.range n, (m.read (off + k)).toNat * 2 ^ (8 * k)) ∧
    m.gather off 1 = (m.read off).setWidth 64 ∧
    m.gather off 2 = (m.read (off + 1) ++ m.read off).setWidth 64 ∧
    m.gather off 4 = (m.read (off + 3) ++ m.read (off + 2) ++ m.read (off + 1) ++ m.read off).setWidth 64 ∧
    m.gather off 8 = m.read (off + 7) ++ m.read (off + 6) ++ m.read (off + 5) ++ m.read (off + 4) ++
      m.read (off + 3) ++ m.read (off + 2) ++ m.read (off + 1) ++ m.read off

/-- `MemWrite(off, n, v)` sets cell `off + k` to `(v >> 8k) & 0xFF` for `k` below `n` and leaves every other cell as it was
(20_memory.md section 4); and it keeps the canonical form of the list, which is the model's choice (assumption 9). -/
def Obligations.PackerWritesTheSpanOnly : Prop :=
  ∀ (m : Memory) (off n : Nat) (v : Word),
    (∀ k, k < n → ((m.scatter off v n).read (off + k)).setWidth 64 = (v >>> (8 * k)) &&& 0xFF#64) ∧
    (∀ i, i < off ∨ off + n ≤ i → (m.scatter off v n).read i = m.read i) ∧
    (m.wf → (m.scatter off v n).wf)

/-- R41: an access of one width sees data written at another exactly as the cells hold it; the rule's own example. -/
def Obligations.MixedWidthsSeeTheCells : Prop :=
  ∀ (s t : State) (f : Nat) (d : Word), s.config.wf = true → f + 8 ≤ s.config.capacity →
    exec (.store32 (s.config.addrOf f) 0xAABBCCDD#64) s = .next t →
    exec (.load8 (s.config.addrOf f) d) t = .next { t with response := some (.okValue 0xDD#64) } ∧
    exec (.load8 (s.config.addrOf (f + 3)) d) t = .next { t with response := some (.okValue 0xAA#64) } ∧
    exec (.load16 (s.config.addrOf (f + 1)) d) t = .next { t with response := some (.okValue 0xBBCC#64) } ∧
    exec (.load64 (s.config.addrOf f) d) t = .next { t with response := some (.okValue
      (s.mem.read (f + 7) ++ s.mem.read (f + 6) ++ s.mem.read (f + 5) ++ s.mem.read (f + 4) ++
       0xAA#8 ++ 0xBB#8 ++ 0xCC#8 ++ 0xDD#8)) }

/-! ### The eight forms -/

/-- R71: `LOAD8 addr`. -/
def Obligations.Load8ReturnsTheCell : Prop :=
  ∀ (s : State) (a : Addr) (d : Word),
    cmdField (encode (.load8 a d)) = 0x008#9 ∧ decode (encode (.load8 a d)) = .ok (.load8 a d) ∧
    (s.config.InRange a 1 → exec (.load8 a d) s = .next { s with response := some (.okValue
      ((s.mem.read (s.config.index a)).setWidth 64)) }) ∧
    (a.toNat < s.config.baseAddress.toNat ∨ s.config.index a ≥ s.config.capacity →
      exec (.load8 a d) s = .next { s with response := some (.err .outOfRange) })

/-- R72: `LOAD16 addr`. -/
def Obligations.Load16ReturnsTwoCells : Prop :=
  ∀ (s : State) (a : Addr) (d : Word),
    cmdField (encode (.load16 a d)) = 0x010#9 ∧ decode (encode (.load16 a d)) = .ok (.load16 a d) ∧
    (s.config.InRange a 2 → exec (.load16 a d) s = .next { s with response := some (.okValue
      ((s.mem.read (s.config.index a + 1) ++ s.mem.read (s.config.index a)).setWidth 64)) }) ∧
    (a.toNat < s.config.baseAddress.toNat ∨ s.config.index a + 2 > s.config.capacity →
      exec (.load16 a d) s = .next { s with response := some (.err .outOfRange) })

/-- R73: `LOAD32 addr`. -/
def Obligations.Load32ReturnsFourCells : Prop :=
  ∀ (s : State) (a : Addr) (d : Word),
    let f := s.config.index a
    cmdField (encode (.load32 a d)) = 0x020#9 ∧ decode (encode (.load32 a d)) = .ok (.load32 a d) ∧
    (s.config.InRange a 4 → exec (.load32 a d) s = .next { s with response := some (.okValue
      ((s.mem.read (f + 3) ++ s.mem.read (f + 2) ++ s.mem.read (f + 1) ++ s.mem.read f).setWidth 64)) }) ∧
    (a.toNat < s.config.baseAddress.toNat ∨ f + 4 > s.config.capacity →
      exec (.load32 a d) s = .next { s with response := some (.err .outOfRange) })

/-- R74: `LOAD64 addr`; with a capacity below 8 every one fails. -/
def Obligations.Load64ReturnsEightCells : Prop :=
  ∀ (s : State) (a : Addr) (d : Word),
    let f := s.config.index a
    cmdField (encode (.load64 a d)) = 0x040#9 ∧ decode (encode (.load64 a d)) = .ok (.load64 a d) ∧
    (s.config.InRange a 8 → exec (.load64 a d) s = .next { s with response := some (.okValue
      (s.mem.read (f + 7) ++ s.mem.read (f + 6) ++ s.mem.read (f + 5) ++ s.mem.read (f + 4) ++
       s.mem.read (f + 3) ++ s.mem.read (f + 2) ++ s.mem.read (f + 1) ++ s.mem.read f)) }) ∧
    (a.toNat < s.config.baseAddress.toNat ∨ f + 8 > s.config.capacity →
      exec (.load64 a d) s = .next { s with response := some (.err .outOfRange) }) ∧
    (s.config.capacity < 8 → exec (.load64 a d) s = .next { s with response := some (.err .outOfRange) })

/-- R78: `STORE8 addr, value`. -/
def Obligations.Store8WritesTheCell : Prop :=
  ∀ (s : State) (a : Addr) (v : Word),
    let f := s.config.index a
    cmdField (encode (.store8 a v)) = 0x108#9 ∧ decode (encode (.store8 a v)) = .ok (.store8 a v) ∧
    (s.config.InRange a 1 → ∃ m : Memory,
      exec (.store8 a v) s = .next { s with mem := m, response := some .ok } ∧
      m.read f = v.extractLsb' 0 8 ∧
      ∀ i, i < f ∨ f + 1 ≤ i → m.read i = s.mem.read i) ∧
    (a.toNat < s.config.baseAddress.toNat ∨ f ≥ s.config.capacity →
      exec (.store8 a v) s = .next { s with response := some (.err .outOfRange) })

/-- R79: `STORE16 addr, value`. -/
def Obligations.Store16WritesTwoCells : Prop :=
  ∀ (s : State) (a : Addr) (v : Word),
    let f := s.config.index a
    cmdField (encode (.store16 a v)) = 0x110#9 ∧ decode (encode (.store16 a v)) = .ok (.store16 a v) ∧
    (s.config.InRange a 2 → ∃ m : Memory,
      exec (.store16 a v) s = .next { s with mem := m, response := some .ok } ∧
      m.read f = v.extractLsb' 0 8 ∧ m.read (f + 1) = v.extractLsb' 8 8 ∧
      ∀ i, i < f ∨ f + 2 ≤ i → m.read i = s.mem.read i) ∧
    (a.toNat < s.config.baseAddress.toNat ∨ f + 2 > s.config.capacity →
      exec (.store16 a v) s = .next { s with response := some (.err .outOfRange) })

/-- R80: `STORE32 addr, value`. -/
def Obligations.Store32WritesFourCells : Prop :=
  ∀ (s : State) (a : Addr) (v : Word),
    let f := s.config.index a
    cmdField (encode (.store32 a v)) = 0x120#9 ∧ decode (encode (.store32 a v)) = .ok (.store32 a v) ∧
    (s.config.InRange a 4 → ∃ m : Memory,
      exec (.store32 a v) s = .next { s with mem := m, response := some .ok } ∧
      m.read f = v.extractLsb' 0 8 ∧ m.read (f + 1) = v.extractLsb' 8 8 ∧
      m.read (f + 2) = v.extractLsb' 16 8 ∧ m.read (f + 3) = v.extractLsb' 24 8 ∧
      ∀ i, i < f ∨ f + 4 ≤ i → m.read i = s.mem.read i) ∧
    (a.toNat < s.config.baseAddress.toNat ∨ f + 4 > s.config.capacity →
      exec (.store32 a v) s = .next { s with response := some (.err .outOfRange) })

/-- R81: `STORE64 addr, value`; with a capacity below 8 every one fails. -/
def Obligations.Store64WritesEightCells : Prop :=
  ∀ (s : State) (a : Addr) (v : Word),
    let f := s.config.index a
    cmdField (encode (.store64 a v)) = 0x140#9 ∧ decode (encode (.store64 a v)) = .ok (.store64 a v) ∧
    (s.config.InRange a 8 → ∃ m : Memory,
      exec (.store64 a v) s = .next { s with mem := m, response := some .ok } ∧
      (∀ k, k < 8 → m.read (f + k) = v.extractLsb' (8 * k) 8) ∧
      ∀ i, i < f ∨ f + 8 ≤ i → m.read i = s.mem.read i) ∧
    (a.toNat < s.config.baseAddress.toNat ∨ f + 8 > s.config.capacity →
      exec (.store64 a v) s = .next { s with response := some (.err .outOfRange) }) ∧
    (s.config.capacity < 8 → exec (.store64 a v) s = .next { s with response := some (.err .outOfRange) })

/-! ### Frames and laws over the forms -/

/-- R75: a load is read-only, whatever its outcome, and an equal load issued next gives an equal response. The frame of
`LOAD8`, `LOAD16`, `LOAD32` and `LOAD64`: only the response may change. -/
def Obligations.LoadChangesNothing : Prop :=
  ∀ (s t : State) (w : Width) (a : Addr) (d : Word), exec (loadOf w a d) s = .next t →
    t.config = s.config ∧ t.requests = s.requests ∧ t.mem = s.mem ∧
    (∀ i, t.mem.read i = s.mem.read i) ∧ exec (loadOf w a d) t = .next t

/-- The frame of `STORE8`, `STORE16`, `STORE32` and `STORE64` (R34, R76, R82): nothing but the response and the cells of
the span may change, the span starting at the offset the decoder gives for the address; a store that fails changes no
cell. -/
def Obligations.StoreFrame : Prop :=
  ∀ (s t : State) (w : Width) (a : Addr) (v : Word), exec (storeOf w a v) s = .next t →
    t.config = s.config ∧ t.requests = s.requests ∧
    (∀ f, offsetOf s.config a = some f → ∀ i, i < f ∨ f + w.bytes ≤ i → t.mem.read i = s.mem.read i) ∧
    (¬ s.config.InRange a w.bytes → t.mem = s.mem)

/-- R70: a load zero-extends: its value is below `2^w`, whatever bytes the cells hold. -/
def Obligations.LoadZeroExtends : Prop :=
  ∀ (s t : State) (w : Width) (a : Addr) (d v : Word), exec (loadOf w a d) s = .next t →
    t.response = some (.okValue v) → v.toNat < 2 ^ w.bits ∧ (w = .w8 → v.extractLsb' 8 56 = 0#56)

/-- R77: only the low `width` bits of a store's value are used: the value and the value cut to the width have the same
effect and the same response. -/
def Obligations.StoreUsesTheLowBitsOnly : Prop :=
  ∀ (s : State) (w : Width) (a : Addr) (v : Word),
    exec (storeOf w a v) s = exec (storeOf w a (BitVec.ofNat 64 (v.toNat % 2 ^ w.bits))) s

/-- The `wdata` lines of a load are ignored (R54). That the instruction holds them as an operand is the model's choice
(assumption 12). -/
def Obligations.LoadIgnoresWdata : Prop :=
  ∀ (s : State) (w : Width) (a : Addr) (d d' : Word), exec (loadOf w a d) s = exec (loadOf w a d') s

/-- Law L1 of R49: a load issued after a successful store to the same address and width returns the value cut to the
width. -/
def Obligations.StoreThenLoadReturnsTheValue : Prop :=
  ∀ (s t : State) (w : Width) (a : Addr) (v d : Word), exec (storeOf w a v) s = .next t →
    t.response = some .ok →
    exec (loadOf w a d) t = .next { t with response := some (.okValue (BitVec.ofNat 64 (v.toNat % 2 ^ w.bits))) }

/-- Law L10 of R49: after a successful store, a byte load at each place of the span returns that byte of the value. -/
def Obligations.ByteViewOfAStore : Prop :=
  ∀ (s t : State) (w : Width) (a : Addr) (v d : Word) (k : Nat), s.config.wf = true → k < w.bytes →
    exec (storeOf w a v) s = .next t → t.response = some .ok →
    exec (.load8 (a + BitVec.ofNat 64 k) d) t =
      .next { t with response := some (.okValue ((v.extractLsb' (8 * k) 8).setWidth 64)) }

/-- Law L5 of R49: for the same address and width a load and a store both succeed, exactly when the span is in range, or
both fail with the same error. -/
def Obligations.LoadAndStoreAgreeOnTheVerdict : Prop :=
  ∀ (s t u : State) (w : Width) (a : Addr) (d v : Word),
    exec (loadOf w a d) s = .next t → exec (storeOf w a v) s = .next u →
    ((∃ x, t.response = some (.okValue x)) ↔ s.config.InRange a w.bytes) ∧
    (u.response = some .ok ↔ s.config.InRange a w.bytes) ∧
    ∀ e, t.response = some (.err e) ↔ u.response = some (.err e)

/-- Law L6 of R49: of two successful stores, each cell of the second one's span holds the second's byte, and each cell
only the first one's span holds has the first's. -/
def Obligations.LastStoreWins : Prop :=
  ∀ (s t u : State) (w x : Width) (a b : Addr) (v y : Word),
    exec (storeOf w a v) s = .next t → t.response = some .ok →
    exec (storeOf x b y) t = .next u → u.response = some .ok →
    (∀ k, k < x.bytes → u.mem.read (s.config.index b + k) = y.extractLsb' (8 * k) 8) ∧
    ∀ k, k < w.bytes →
      (s.config.index a + k < s.config.index b ∨ s.config.index b + x.bytes ≤ s.config.index a + k) →
      u.mem.read (s.config.index a + k) = v.extractLsb' (8 * k) 8

/-- Law L7 of R49: two successful stores whose spans share no cell give the same final array in either order. The arrays are
compared as lists, in the canonical form that is the model's choice (assumption 9). -/
def Obligations.DisjointStoresCommute : Prop :=
  ∀ (s t u t' u' : State) (w x : Width) (a b : Addr) (v y : Word), s.mem.wf →
    (s.config.index a + w.bytes ≤ s.config.index b ∨ s.config.index b + x.bytes ≤ s.config.index a) →
    exec (storeOf w a v) s = .next t → exec (storeOf x b y) t = .next u →
    exec (storeOf x b y) s = .next t' → exec (storeOf w a v) t' = .next u' →
    t.response = some .ok → u.response = some .ok →
    u.mem = u'.mem ∧ t'.response = some .ok ∧ u'.response = some .ok

/-- Law L8 of R49: repeating a successful store with the same arguments leaves the machine as the first left it, for an
array in the canonical form that is the model's choice (assumption 9). -/
def Obligations.RepeatedStoreChangesNothing : Prop :=
  ∀ (s t : State) (w : Width) (a : Addr) (v : Word), s.mem.wf →
    exec (storeOf w a v) s = .next t → t.response = some .ok → exec (storeOf w a v) t = .next t

/-! ### Errors and whole-machine rules -/

/-- R90: an operation that ends in an error changes no state: the response is the error and the array is as before. -/
def Obligations.ErrorChangesNoState : Prop :=
  ∀ (s t : State) (w : ReqWord) (rest : List ReqWord) (e : AccessError), s.requests = w :: rest →
    step s = .next t → t.response = some (.err e) →
    t = { s with requests := rest, response := some (.err e) }

/-- R82: the array changes in an operation only when the operation is a store that returns `Ok`, and every check comes
before any write. -/
def Obligations.OnlyASuccessfulStoreChangesACell : Prop :=
  ∀ (s t : State) (w : ReqWord) (rest : List ReqWord), s.requests = w :: rest → step s = .next t →
    t.mem ≠ s.mem → opField w = .store ∧ t.response = some .ok

/-- `InvalidWidth` exactly when the width is not one of the four, whatever the address; `OutOfRange` exactly when the width is
valid and the bounds check fails (60_exceptions.md section 1). That the width comes first is the spec's own decision
D6 (assumption 10). -/
def Obligations.EachErrorHasItsCause : Prop :=
  ∀ (s t : State) (w : ReqWord) (rest : List ReqWord), s.requests = w :: rest → step s = .next t →
    (t.response = some (.err .invalidWidth) ↔ (widthField w).toNat ∉ [8, 16, 32, 64]) ∧
    (t.response = some (.err .outOfRange) ↔
      (widthField w).toNat ∈ [8, 16, 32, 64] ∧ ¬ s.config.InRange (addrField w) ((widthField w).toNat / 8))

/-- R19: the outcome of an operation depends on its arguments and on the array alone, never on earlier responses or on
what is still to come. -/
def Obligations.EveryOperationIsIndependent : Prop :=
  ∀ (s s' t t' : State) (i : Instr), s.config = s'.config → s.mem = s'.mem →
    exec i s = .next t → exec i s' = .next t' → t.mem = t'.mem ∧ t.response = t'.response

/-- R69, R76: a step is the spec's `load` or `store` on the fields of the request word: the response and every cell after
it are those of the two plain functions of Safety.lean, which know nothing of the decoder, the arbiter or how the
array is held. They test the width first, which is the spec's own decision D6 (assumption 10). -/
def Obligations.StepRefinesLoadAndStore : Prop :=
  ∀ (s : State) (w : ReqWord) (rest : List ReqWord), s.requests = w :: rest →
    ∃ t : State, step s = .next t ∧ t.config = s.config ∧ t.requests = rest ∧
      t.response = some (Spec.response s.config s.mem.read (Request.unpack w)) ∧
      ∀ i, t.mem.read i = Spec.cells s.config s.mem.read (Request.unpack w) i

/-- R48: after all pending requests each cell holds the byte of the latest successful store whose span holds it, or what
it held before; the stream is then empty. -/
def Obligations.CellsHoldTheLatestStore : Prop :=
  ∀ s : State, ∃ t : State, core.run s.requests.length s = .next t ∧ t.config = s.config ∧ t.requests = [] ∧
    ∀ i, t.mem.read i = Spec.latest s.config (s.mem.read i) i (s.requests.map Request.unpack)

/-- R48 as an invariant of one step: if each cell holds the byte of the latest successful store among the requests taken so
far (or what it held before them all), then after the next step it does so with the next request among them. The
requests taken so far and the cells before them are no part of the state: the statement is for any. -/
def Obligations.NextStepKeepsTheLatestStores : Prop :=
  ∀ (s t : State) (before : Nat → Byte) (taken : List ReqWord) (w : ReqWord) (rest : List ReqWord),
    (∀ i, s.mem.read i = Spec.latest s.config (before i) i (taken.map Request.unpack)) →
    s.requests = w :: rest → step s = .next t →
    t.config = s.config ∧ t.requests = rest ∧
    ∀ i, t.mem.read i = Spec.latest t.config (before i) i ((taken ++ [w]).map Request.unpack)
end

