-- ==== Sys2Proof/Laws/Decode.lean ====
section
/-! SUPPORT. The fields of a packed request word, and the rows of the opcode map. -/

namespace Sys2Proof

/-- Each bit of a packed request word is a bit of the field it lies in (R55). -/
theorem getLsbD_pack (r : Request) (i : Nat) :
    r.pack.getLsbD i =
      if i < 64 then r.wdata.getLsbD i
      else if i < 128 then r.addr.getLsbD (i - 64)
      else (r.op.code ++ r.width).getLsbD (i - 128) := by
  have h1 : r.pack.getLsbD i = if i < 64 then r.wdata.getLsbD i
      else (r.op.code ++ r.width ++ r.addr).getLsbD (i - 64) :=
    BitVec.getLsbD_append (x := r.op.code ++ r.width ++ r.addr) (y := r.wdata)
  have h2 := BitVec.getLsbD_append (i := i - 64) (x := r.op.code ++ r.width) (y := r.addr)
  rw [h1, h2]
  by_cases h : i < 64
  · rw [if_pos h, if_pos h]
  · rw [if_neg h, if_neg h, show i - 64 - 64 = i - 128 by omega]
    exact if_congr (by omega) rfl rfl

theorem wdataField_pack (r : Request) : wdataField r.pack = r.wdata := by
  apply BitVec.eq_of_getLsbD_eq
  intro i hi
  rw [wdataField, BitVec.getLsbD_extractLsb', getLsbD_pack, if_pos (by omega)]
  simp [hi]

theorem addrField_pack (r : Request) : addrField r.pack = r.addr := by
  apply BitVec.eq_of_getLsbD_eq
  intro i hi
  rw [addrField, BitVec.getLsbD_extractLsb', getLsbD_pack, if_neg (by omega), if_pos (by omega)]
  simp [hi]

theorem cmdField_pack (r : Request) : cmdField r.pack = r.op.code ++ r.width := by
  apply BitVec.eq_of_getLsbD_eq
  intro i hi
  rw [cmdField, BitVec.getLsbD_extractLsb', getLsbD_pack, if_neg (by omega), if_neg (by omega)]
  simp [hi]

/-- The operation bit and the width field are the two parts of the command header. -/
theorem opField_eq (w : ReqWord) : opField w = if (cmdField w).getLsbD 8 then .store else .load := by
  simp [opField, cmdField]

theorem widthField_eq (w : ReqWord) : widthField w = (cmdField w).extractLsb' 0 8 := by
  apply BitVec.eq_of_getLsbD_eq
  intro i hi
  have h1 : i < 9 := by omega
  simp [widthField, cmdField, hi, h1]

/-- The header of each row, from its columns `op` and `width`. -/
theorem cmdField_encode (i : Instr) : cmdField (encode i) = i.request.op.code ++ i.request.width :=
  cmdField_pack i.request

/-- A header is determined by its operation bit and its width field. -/
theorem cmd_of_fields : ∀ x : Cmd,
    (if x.getLsbD 8 then Op.store else Op.load).code ++ x.extractLsb' 0 8 = x := by decide

end Sys2Proof
end

