-- ==== Sys2Proof/Laws/Memory.lean ====
section
/-! SUPPORT. The laws of the storage array: read after write, the canonical form and the index set are kept by every
operation, and canonical arrays that read alike are equal. -/

namespace Sys2Proof.Machine

@[simp] theorem Memory.read_nil (i : Nat) : Memory.read [] i = Memory.unlisted := rfl

theorem Memory.read_cons (p : Host.Cell) (m : Memory) (i : Nat) :
    Memory.read (p :: m) i = if p.1 = i then p.2 else Memory.read m i := rfl

/-- A cell with no entry reads as creation left it. -/
theorem Memory.read_of_not_listed {m : Memory} {i : Nat} (h : ∀ p ∈ m, p.1 ≠ i) :
    m.read i = Memory.unlisted := by
  induction m with
  | nil => rfl
  | cons p m ih =>
    rw [Memory.read_cons, if_neg (h p (by simp)), ih fun q hq => h q (by simp [hq])]

theorem Memory.mem_clear {m : Memory} {i : Nat} {p : Host.Cell} : p ∈ m.clear i ↔ p ∈ m ∧ p.1 ≠ i := by
  simp [Memory.clear]

theorem Memory.read_clear_same (m : Memory) (i : Nat) : (m.clear i).read i = Memory.unlisted :=
  Memory.read_of_not_listed fun _ hp => (Memory.mem_clear.1 hp).2

theorem Memory.read_clear_other (m : Memory) {i j : Nat} (h : j ≠ i) : (m.clear i).read j = m.read j := by
  induction m with
  | nil => rfl
  | cons p m ih =>
    by_cases hp : p.1 = i
    · have : Memory.clear (p :: m) i = Memory.clear m i := by simp [Memory.clear, hp]
      rw [this, ih, Memory.read_cons, if_neg (by omega)]
    · have : Memory.clear (p :: m) i = p :: Memory.clear m i := by simp [Memory.clear, hp]
      rw [this, Memory.read_cons, Memory.read_cons, ih]

theorem Memory.mem_place {m : Memory} {i : Nat} {b : Byte} {p : Host.Cell} :
    p ∈ m.place i b ↔ p = (i, b) ∨ p ∈ m := by
  induction m with
  | nil => simp [Memory.place]
  | cons q m ih =>
    obtain ⟨a, x⟩ := q
    simp only [Memory.place]
    split
    · simp
    · simp only [List.mem_cons, ih]
      tauto

theorem Memory.read_place (m : Memory) (i j : Nat) (b : Byte) (h : ∀ p ∈ m, p.1 ≠ i) :
    (m.place i b).read j = if i = j then b else m.read j := by
  induction m with
  | nil => rfl
  | cons q m ih =>
    obtain ⟨a, x⟩ := q
    have hq : a ≠ i := h (a, x) (by simp)
    have ih := ih fun p hp => h p (by simp [hp])
    simp only [Memory.place]
    split
    · rfl
    · rw [Memory.read_cons, Memory.read_cons, ih]
      by_cases haj : a = j
      · rw [if_pos haj, if_neg (by omega), if_pos haj]
      · rw [if_neg haj, if_neg haj]

/-- Reading after a write: the byte written at that cell, and what was there before at every other. -/
theorem Memory.read_write (m : Memory) (i j : Nat) (b : Byte) :
    (m.write i b).read j = if i = j then b else m.read j := by
  unfold Memory.write
  split
  · next hb =>
    by_cases hij : i = j
    · rw [if_pos hij, ← hij, Memory.read_clear_same, hb]
    · rw [if_neg hij, Memory.read_clear_other m (Ne.symm hij)]
  · rw [Memory.read_place _ _ _ _ fun p hp => (Memory.mem_clear.1 hp).2]
    by_cases hij : i = j
    · rw [if_pos hij, if_pos hij]
    · rw [if_neg hij, if_neg hij, Memory.read_clear_other m (Ne.symm hij)]

/-- Every entry after a write is the written one or was there before. -/
theorem Memory.mem_write {m : Memory} {i : Nat} {b : Byte} {p : Host.Cell} (h : p ∈ m.write i b) :
    p = (i, b) ∨ p ∈ m := by
  unfold Memory.write at h
  split at h
  · exact .inr (Memory.mem_clear.1 h).1
  · exact (Memory.mem_place.1 h).imp_right fun h => (Memory.mem_clear.1 h).1

theorem Memory.clear_wf {m : Memory} (i : Nat) (h : m.wf) : (m.clear i).wf :=
  ⟨h.1.filter _, fun p hp => h.2 p (Memory.mem_clear.1 hp).1⟩

theorem Memory.place_sorted {m : Memory} {i : Nat} (b : Byte)
    (h : List.Pairwise (fun p q : Host.Cell => p.1 < q.1) m) (hi : ∀ p ∈ m, p.1 ≠ i) :
    List.Pairwise (fun p q : Host.Cell => p.1 < q.1) (m.place i b) := by
  induction m with
  | nil => simp [Memory.place]
  | cons q m ih =>
    obtain ⟨a, x⟩ := q
    have hq : a ≠ i := hi (a, x) (by simp)
    obtain ⟨ha, hm⟩ := List.pairwise_cons.1 h
    simp only [Memory.place]
    split
    · next hlt =>
      refine List.pairwise_cons.2 ⟨fun p hp => ?_, h⟩
      rcases List.mem_cons.1 hp with rfl | hp
      · exact hlt
      · exact Nat.lt_trans hlt (ha p hp)
    · next hge =>
      refine List.pairwise_cons.2 ⟨fun p hp => ?_, ih hm fun p hp => hi p (by simp [hp])⟩
      rcases Memory.mem_place.1 hp with rfl | hp
      · exact Nat.lt_of_le_of_ne (Nat.le_of_not_lt hge) hq
      · exact ha p hp

/-- A write keeps the canonical form. -/
theorem Memory.write_wf {m : Memory} (i : Nat) (b : Byte) (h : m.wf) : (m.write i b).wf := by
  unfold Memory.write
  split
  · exact Memory.clear_wf i h
  · next hb =>
    have hc := Memory.clear_wf i h
    refine ⟨Memory.place_sorted b hc.1 fun p hp => (Memory.mem_clear.1 hp).2, fun p hp => ?_⟩
    rcases Memory.mem_place.1 hp with rfl | hp
    · exact hb
    · exact hc.2 p hp

/-- The packer's loop keeps the canonical form. -/
theorem Memory.scatter_keeps_wf {m : Memory} (off : Nat) (v : Word) (n : Nat) (h : m.wf) :
    Memory.wf (m.scatter off v n) := by
  induction n with
  | zero => exact h
  | succ n ih => exact Memory.write_wf _ _ ih

/-- The packer's loop lists no cell but those of its span and those listed before. -/
theorem Memory.mem_scatter {m : Memory} {off n : Nat} {v : Word} {p : Host.Cell} (h : p ∈ m.scatter off v n) :
    p ∈ m ∨ off ≤ p.1 ∧ p.1 < off + n := by
  induction n with
  | zero => exact .inl h
  | succ n ih =>
    rcases Memory.mem_write h with rfl | h
    · exact .inr ⟨Nat.le_add_right _ _, by simp⟩
    · exact (ih h).imp_right fun h => ⟨h.1, by omega⟩

/-- What the packer's loop leaves in each cell (R40). -/
theorem Memory.read_scatter (m : Memory) (off : Nat) (v : Word) (n i : Nat) :
    (m.scatter off v n).read i = if off ≤ i ∧ i < off + n then byteOf v (i - off) else m.read i := by
  induction n with
  | zero => simp [Memory.scatter]
  | succ n ih =>
    rw [Memory.scatter, Memory.read_write, ih]
    by_cases h : off + n = i
    · subst h
      simp
    · rw [if_neg h]
      refine if_congr ?_ rfl rfl
      omega

/-- Bit `b` of what the unpacker's loop assembles is a bit of the cell it lies in; bits above the bytes read are zero
(R38, R42). -/
theorem Memory.getLsbD_gather (m : Memory) (off n b : Nat) (hn : n ≤ 8) :
    (m.gather off n).getLsbD b = (decide (b < 8 * n) && (m.read (off + b / 8)).getLsbD (b % 8)) := by
  induction n with
  | zero => simp [Memory.gather]
  | succ n ih =>
    rw [Memory.gather, BitVec.getLsbD_or, ih (by omega), BitVec.getLsbD_shiftLeft, BitVec.getLsbD_setWidth]
    rcases Nat.lt_trichotomy (b / 8) n with h | h | h
    · have h1 : b < 8 * n := by omega
      have h2 : b < 8 * (n + 1) := by omega
      simp [h1, h2]
    · have h1 : ¬ b < 8 * n := by omega
      have h2 : b < 8 * (n + 1) := by omega
      have h3 : b < 64 := by omega
      have h4 : b - 8 * n < 64 := by omega
      have h5 : b - 8 * n = b % 8 := by omega
      have h6 : b % 8 < 64 := by omega
      simp [h1, h2, h3, h5, h6, h]
    · have h1 : ¬ b < 8 * n := by omega
      have h2 : ¬ b < 8 * (n + 1) := by omega
      have h3 : 8 ≤ b - 8 * n := by omega
      have h4 := BitVec.getLsbD_of_ge (m.read (off + n)) (b - 8 * n) h3
      simp [h1, h2, h4]

/-- The unpacker's loop depends on the cells of its span only. -/
theorem Memory.gather_congr {m m' : Memory} {off n : Nat}
    (h : ∀ k, k < n → m.read (off + k) = m'.read (off + k)) : m.gather off n = m'.gather off n := by
  induction n with
  | zero => rfl
  | succ n ih => rw [Memory.gather, Memory.gather, ih fun k hk => h k (by omega), h n (by omega)]

/-- Two arrays in canonical form that read alike at every cell are equal (R13). -/
theorem Memory.eq_of_read_eq {m m' : Memory} (h : m.wf) (h' : m'.wf) (hr : ∀ i, m.read i = m'.read i) :
    m = m' := by
  induction m generalizing m' with
  | nil =>
    cases m' with
    | nil => rfl
    | cons q m' =>
      have hq := hr q.1
      rw [Memory.read_cons, if_pos rfl] at hq
      exact absurd hq.symm (h'.2 q (by simp))
  | cons p m ih =>
    obtain ⟨hp, hm⟩ := List.pairwise_cons.1 h.1
    cases m' with
    | nil =>
      have hq := hr p.1
      rw [Memory.read_cons, if_pos rfl] at hq
      exact absurd hq (h.2 p (by simp))
    | cons q m' =>
      obtain ⟨hq, hm'⟩ := List.pairwise_cons.1 h'.1
      have below_p : ∀ i, i < p.1 → Memory.read (p :: m) i = Memory.unlisted := fun i hi =>
        Memory.read_of_not_listed fun r hr => by
          rcases List.mem_cons.1 hr with rfl | hr
          · omega
          · have := hp r hr; omega
      have below_q : ∀ i, i < q.1 → Memory.read (q :: m') i = Memory.unlisted := fun i hi =>
        Memory.read_of_not_listed fun r hr => by
          rcases List.mem_cons.1 hr with rfl | hr
          · omega
          · have := hq r hr; omega
      have hkey : p.1 = q.1 := by
        rcases Nat.lt_trichotomy p.1 q.1 with hlt | heq | hlt
        · have := hr p.1
          rw [below_q _ hlt, Memory.read_cons, if_pos rfl] at this
          exact absurd this (h.2 p (by simp))
        · exact heq
        · have := hr q.1
          rw [below_p _ hlt, Memory.read_cons, if_pos rfl] at this
          exact absurd this.symm (h'.2 q (by simp))
      have hbyte : p.2 = q.2 := by
        have := hr p.1
        rwa [Memory.read_cons, if_pos rfl, Memory.read_cons, if_pos hkey.symm] at this
      have hpq : p = q := Prod.ext hkey hbyte
      subst hpq
      congr 1
      refine ih ⟨hm, fun r hr => h.2 r (by simp [hr])⟩ ⟨hm', fun r hr => h'.2 r (by simp [hr])⟩ fun i => ?_
      by_cases hi : p.1 = i
      · subst hi
        rw [Memory.read_of_not_listed fun r hr => by have := hp r hr; omega,
          Memory.read_of_not_listed fun r hr => by have := hq r hr; omega]
      · have := hr i
        rwa [Memory.read_cons, if_neg hi, Memory.read_cons, if_neg hi] at this

end Sys2Proof.Machine
end

