-- ==== Sys2Proof/Laws/State.lean ====
section
/-! SUPPORT. One lemma per field per update of the state, so that no proof unfolds a record update. -/

namespace Sys2Proof.Machine

@[simp] theorem State.respond_config (s : State) (r : Response) : (s.respond r).config = s.config := rfl
@[simp] theorem State.respond_mem (s : State) (r : Response) : (s.respond r).mem = s.mem := rfl
@[simp] theorem State.respond_requests (s : State) (r : Response) : (s.respond r).requests = s.requests := rfl
@[simp] theorem State.respond_response (s : State) (r : Response) : (s.respond r).response = some r := rfl

@[simp] theorem State.raise_config (s : State) (e : AccessError) : (s.raise e).config = s.config := rfl
@[simp] theorem State.raise_mem (s : State) (e : AccessError) : (s.raise e).mem = s.mem := rfl
@[simp] theorem State.raise_requests (s : State) (e : AccessError) : (s.raise e).requests = s.requests := rfl
@[simp] theorem State.raise_response (s : State) (e : AccessError) : (s.raise e).response = some (.err e) := rfl

@[simp] theorem State.setMem_config (s : State) (m : Memory) : (s.setMem m).config = s.config := rfl
@[simp] theorem State.setMem_mem (s : State) (m : Memory) : (s.setMem m).mem = m := rfl
@[simp] theorem State.setMem_requests (s : State) (m : Memory) : (s.setMem m).requests = s.requests := rfl
@[simp] theorem State.setMem_response (s : State) (m : Memory) : (s.setMem m).response = s.response := rfl

@[simp] theorem State.issueNext_config (s : State) (w : ReqWord) : (s.issueNext w).config = s.config := rfl
@[simp] theorem State.issueNext_mem (s : State) (w : ReqWord) : (s.issueNext w).mem = s.mem := rfl
@[simp] theorem State.issueNext_requests (s : State) (w : ReqWord) :
    (s.issueNext w).requests = w :: s.requests := rfl
@[simp] theorem State.issueNext_response (s : State) (w : ReqWord) : (s.issueNext w).response = s.response := rfl

@[simp] theorem State.submit_config (s : State) (w : ReqWord) : (s.submit w).config = s.config := rfl
@[simp] theorem State.submit_mem (s : State) (w : ReqWord) : (s.submit w).mem = s.mem := rfl
@[simp] theorem State.submit_requests (s : State) (w : ReqWord) :
    (s.submit w).requests = s.requests ++ [w] := rfl
@[simp] theorem State.submit_response (s : State) (w : ReqWord) : (s.submit w).response = s.response := rfl

@[simp] theorem State.create_config (c : Config) : (State.create c).config = c := rfl
@[simp] theorem State.create_mem (c : Config) : (State.create c).mem = [] := rfl
@[simp] theorem State.create_requests (c : Config) : (State.create c).requests = [] := rfl
@[simp] theorem State.create_response (c : Config) : (State.create c).response = none := rfl

end Sys2Proof.Machine
end

