-- ==== Sys2Proof/Laws/Ops.lean ====
section
/-! SUPPORT. One lemma per shared operation, saying once everything it can do: the byte-count table, the decoder, the
validator, one operation and one step. -/

namespace Sys2Proof.Machine

theorem bytesOf_bits (w : Width) : bytesOf w.bits = some w.bytes := by cases w <;> rfl

/-- A width has a byte count exactly when it is one of the four. -/
theorem bytesOf_eq_some {width n : Nat} (h : bytesOf width = some n) :
    ∃ w : Width, width = w.bits ∧ n = w.bytes := by
  unfold bytesOf at h
  split at h
  · exact ⟨.w8, by assumption, (Option.some.inj h).symm⟩
  split at h
  · exact ⟨.w16, by assumption, (Option.some.inj h).symm⟩
  split at h
  · exact ⟨.w32, by assumption, (Option.some.inj h).symm⟩
  split at h
  · exact ⟨.w64, by assumption, (Option.some.inj h).symm⟩
  · cases h

theorem bytesOf_eq_none {width : Nat} : bytesOf width = none ↔ width ∉ [8, 16, 32, 64] := by
  unfold bytesOf
  repeat' split
  all_goals simp_all

/-- For a valid width the validator is the bounds check. -/
theorem validate_bits (c : Config) (a : Addr) (w : Width) :
    validate c a w.bits =
      if c.InRange a w.bytes then .ok ⟨c.index a, w.bytes⟩ else .error .outOfRange := by
  unfold validate offsetOf Config.InRange Config.index
  rw [bytesOf_bits]
  by_cases h : a.toNat < c.baseAddress.toNat
  · simp [h, Nat.not_le.2 h]
  · simp [h, Nat.not_lt.1 h]

/-- For any other width it is `InvalidWidth`, whatever the address. -/
theorem validate_invalid (c : Config) (a : Addr) {width : Nat} (h : width ∉ [8, 16, 32, 64]) :
    validate c a width = .error .invalidWidth := by
  unfold validate
  rw [bytesOf_eq_none.2 h]

/-- A load of a valid width: everything it can do. -/
theorem operate_load (a : Addr) (w : Width) (d : Word) (s : State) :
    operate .load a w.bits d s =
      if s.config.InRange a w.bytes
      then .next (s.respond (.okValue (s.mem.gather (s.config.index a) w.bytes)))
      else .next (s.raise .outOfRange) := by
  unfold operate
  rw [validate_bits]
  by_cases h : s.config.InRange a w.bytes
  · rw [if_pos h, if_pos h]
    exact if_pos h.2
  · rw [if_neg h, if_neg h]
    rfl

/-- A store of a valid width: everything it can do. -/
theorem operate_store (a : Addr) (w : Width) (v : Word) (s : State) :
    operate .store a w.bits v s =
      if s.config.InRange a w.bytes
      then .next ((s.setMem (s.mem.scatter (s.config.index a) v w.bytes)).respond .ok)
      else .next (s.raise .outOfRange) := by
  unfold operate
  rw [validate_bits]
  by_cases h : s.config.InRange a w.bytes
  · rw [if_pos h, if_pos h]
    exact if_pos h.2
  · rw [if_neg h, if_neg h]
    rfl

theorem exec_loadOf (w : Width) (a : Addr) (d : Word) (s : State) :
    exec (loadOf w a d) s = operate .load a w.bits d s := by cases w <;> rfl

theorem exec_storeOf (w : Width) (a : Addr) (v : Word) (s : State) :
    exec (storeOf w a v) s = operate .store a w.bits v s := by cases w <;> rfl

/-- Every instruction is the load or the store of a width. -/
theorem instr_cases (i : Instr) :
    (∃ w a d, i = loadOf w a d) ∨ ∃ w a v, i = storeOf w a v := by
  cases i with
  | load8 a d   => exact .inl ⟨.w8, a, d, rfl⟩
  | load16 a d  => exact .inl ⟨.w16, a, d, rfl⟩
  | load32 a d  => exact .inl ⟨.w32, a, d, rfl⟩
  | load64 a d  => exact .inl ⟨.w64, a, d, rfl⟩
  | store8 a v  => exact .inr ⟨.w8, a, v, rfl⟩
  | store16 a v => exact .inr ⟨.w16, a, v, rfl⟩
  | store32 a v => exact .inr ⟨.w32, a, v, rfl⟩
  | store64 a v => exact .inr ⟨.w64, a, v, rfl⟩

/-- What an instruction that answers a next state can have done: failed, loaded or stored. -/
theorem exec_cases {i : Instr} {s t : State} (h : exec i s = .next t) :
    (∃ e, t = s.raise e) ∨
    (∃ w a d, i = loadOf w a d ∧ s.config.InRange a w.bytes ∧
      t = s.respond (.okValue (s.mem.gather (s.config.index a) w.bytes))) ∨
    ∃ w a v, i = storeOf w a v ∧ s.config.InRange a w.bytes ∧
      t = (s.setMem (s.mem.scatter (s.config.index a) v w.bytes)).respond .ok := by
  rcases instr_cases i with ⟨w, a, d, rfl⟩ | ⟨w, a, v, rfl⟩
  · rw [exec_loadOf, operate_load] at h
    split at h
    · next hr => exact .inr (.inl ⟨w, a, d, rfl, hr, (Host.Outcome.next.inj h).symm⟩)
    · exact .inl ⟨_, (Host.Outcome.next.inj h).symm⟩
  · rw [exec_storeOf, operate_store] at h
    split at h
    · next hr => exact .inr (.inr ⟨w, a, v, rfl, hr, (Host.Outcome.next.inj h).symm⟩)
    · exact .inl ⟨_, (Host.Outcome.next.inj h).symm⟩

/-- What a word that decodes says: one of the four widths, and the load or the store of it on the word's operands. -/
theorem decode_cases {w : ReqWord} {i : Instr} (h : decode w = .ok i) :
    ∃ x : Width, (widthField w).toNat = x.bits ∧
      ((opField w = .load ∧ i = loadOf x (addrField w) (wdataField w)) ∨
        (opField w = .store ∧ i = storeOf x (addrField w) (wdataField w))) := by
  rw [widthField_eq, opField_eq]
  unfold decode at h
  split at h
  · next hc => cases h; rw [hc]; exact ⟨.w8, by decide, .inl ⟨by decide, rfl⟩⟩
  split at h
  · next hc => cases h; rw [hc]; exact ⟨.w16, by decide, .inl ⟨by decide, rfl⟩⟩
  split at h
  · next hc => cases h; rw [hc]; exact ⟨.w32, by decide, .inl ⟨by decide, rfl⟩⟩
  split at h
  · next hc => cases h; rw [hc]; exact ⟨.w64, by decide, .inl ⟨by decide, rfl⟩⟩
  split at h
  · next hc => cases h; rw [hc]; exact ⟨.w8, by decide, .inr ⟨by decide, rfl⟩⟩
  split at h
  · next hc => cases h; rw [hc]; exact ⟨.w16, by decide, .inr ⟨by decide, rfl⟩⟩
  split at h
  · next hc => cases h; rw [hc]; exact ⟨.w32, by decide, .inr ⟨by decide, rfl⟩⟩
  split at h
  · next hc => cases h; rw [hc]; exact ⟨.w64, by decide, .inr ⟨by decide, rfl⟩⟩
  · cases h

/-- A word is rejected exactly when its width field is none of the four widths. -/
theorem decode_eq_error_iff (w : ReqWord) :
    decode w = .error .invalidWidth ↔ (widthField w).toNat ∉ [8, 16, 32, 64] := by
  have key : (widthField w).toNat ∉ [8, 16, 32, 64] ↔
      ¬ (cmdField w = 0x008#9 ∨ cmdField w = 0x010#9 ∨ cmdField w = 0x020#9 ∨ cmdField w = 0x040#9 ∨
        cmdField w = 0x108#9 ∨ cmdField w = 0x110#9 ∨ cmdField w = 0x120#9 ∨ cmdField w = 0x140#9) := by
    rw [widthField_eq]
    simp only [BitVec.extractLsb'_toNat, ← BitVec.toNat_inj, BitVec.toNat_ofNat, List.mem_cons,
      List.not_mem_nil, or_false, Nat.shiftRight_zero]
    have := (cmdField w).isLt
    omega
  rw [key]
  unfold decode
  repeat' split
  all_goals simp_all

/-- The state from which the request at the head of the stream is performed. -/
def State.taken (s : State) (rest : List ReqWord) : State := { s with requests := rest }

@[simp] theorem State.taken_config (s : State) (r : List ReqWord) : (s.taken r).config = s.config := rfl
@[simp] theorem State.taken_mem (s : State) (r : List ReqWord) : (s.taken r).mem = s.mem := rfl
@[simp] theorem State.taken_requests (s : State) (r : List ReqWord) : (s.taken r).requests = r := rfl
@[simp] theorem State.taken_response (s : State) (r : List ReqWord) : (s.taken r).response = s.response := rfl

/-- A step with a request pending. -/
theorem step_of_request {s : State} {w : ReqWord} {rest : List ReqWord} (h : s.requests = w :: rest) :
    step s = match decode w with
      | .ok i                => exec i (s.taken rest)
      | .error .invalidWidth => answerInvalidWidth (s.taken rest) := by
  unfold step State.take
  rw [h]
  rfl

/-- The four cases of a step with a request pending: an invalid width, a span out of range, a load, a store. -/
theorem step_answers {s : State} {w : ReqWord} {rest : List ReqWord} (h : s.requests = w :: rest) :
    ((widthField w).toNat ∉ [8, 16, 32, 64] ∧ step s = .next ((s.taken rest).raise .invalidWidth)) ∨
    ∃ x : Width, (widthField w).toNat = x.bits ∧
      ((¬ s.config.InRange (addrField w) x.bytes ∧ step s = .next ((s.taken rest).raise .outOfRange)) ∨
        (s.config.InRange (addrField w) x.bytes ∧ opField w = .load ∧
          step s = .next ((s.taken rest).respond
            (.okValue (s.mem.gather (s.config.index (addrField w)) x.bytes)))) ∨
        (s.config.InRange (addrField w) x.bytes ∧ opField w = .store ∧
          step s = .next (((s.taken rest).setMem
            (s.mem.scatter (s.config.index (addrField w)) (wdataField w) x.bytes)).respond .ok))) := by
  rw [step_of_request h]
  cases hd : decode w with
  | error e =>
    cases e
    exact .inl ⟨(decode_eq_error_iff w).1 hd, rfl⟩
  | ok i =>
    obtain ⟨x, hx, ⟨ho, rfl⟩ | ⟨ho, rfl⟩⟩ := decode_cases hd
    · refine .inr ⟨x, hx, ?_⟩
      simp only [exec_loadOf, operate_load]
      by_cases hr : s.config.InRange (addrField w) x.bytes
      · exact .inr (.inl ⟨hr, ho, by rw [if_pos (by exact hr)]; rfl⟩)
      · exact .inl ⟨hr, by rw [if_neg (by exact hr)]⟩
    · refine .inr ⟨x, hx, ?_⟩
      simp only [exec_storeOf, operate_store]
      by_cases hr : s.config.InRange (addrField w) x.bytes
      · exact .inr (.inr ⟨hr, ho, by rw [if_pos (by exact hr)]; rfl⟩)
      · exact .inl ⟨hr, by rw [if_neg (by exact hr)]⟩

/-- A run of one more step, when the first answers a next state. -/
theorem run_succ {s t : State} (k : Nat) (h : step s = .next t) : core.run (k + 1) s = core.run k t := by
  have h : core.step s = .next t := h
  exact (Host.Core.run.eq_2 core s k).trans (by rw [h])

/-- What a step that answers a next state can have done. -/
theorem step_cases {s t : State} (h : step s = .next t) :
    (s.requests = [] ∧ t = s) ∨
    ∃ w rest, s.requests = w :: rest ∧
      ((∃ i, decode w = .ok i ∧ exec i (s.taken rest) = .next t) ∨
        (decode w = .error .invalidWidth ∧ t = (s.taken rest).raise .invalidWidth)) := by
  cases hs : s.requests with
  | nil =>
    refine .inl ⟨rfl, ?_⟩
    unfold step State.take at h
    rw [hs] at h
    exact (Host.Outcome.next.inj h).symm
  | cons w rest =>
    rw [step_of_request hs] at h
    refine .inr ⟨w, rest, rfl, ?_⟩
    cases hd : decode w with
    | ok i =>
      rw [hd] at h
      exact .inl ⟨i, rfl, h⟩
    | error e =>
      cases e
      rw [hd] at h
      exact .inr ⟨rfl, (Host.Outcome.next.inj h).symm⟩

end Sys2Proof.Machine
end

