-- ==== Sys2Proof/Laws/PerInstr.lean ====
section
/-! SUPPORT. Statements made per instruction, one lemma per constructor. -/

namespace Sys2Proof.Laws.EncodedFields

/-- The encoded word of an instruction carries its header and both operands whole (spec 30_encoding.md R55, R58). -/
def Statement (i : Instr) : Prop :=
  cmdField (encode i) = i.request.op.code ++ i.request.width ∧
  addrField (encode i) = i.request.addr ∧ wdataField (encode i) = i.request.wdata

theorem of_request (i : Instr) : Statement i :=
  ⟨cmdField_pack i.request, addrField_pack i.request, wdataField_pack i.request⟩

theorem load8 (a : Addr) (d : Word) : Statement (.load8 a d) := of_request _
theorem load16 (a : Addr) (d : Word) : Statement (.load16 a d) := of_request _
theorem load32 (a : Addr) (d : Word) : Statement (.load32 a d) := of_request _
theorem load64 (a : Addr) (d : Word) : Statement (.load64 a d) := of_request _
theorem store8 (a : Addr) (v : Word) : Statement (.store8 a v) := of_request _
theorem store16 (a : Addr) (v : Word) : Statement (.store16 a v) := of_request _
theorem store32 (a : Addr) (v : Word) : Statement (.store32 a v) := of_request _
theorem store64 (a : Addr) (v : Word) : Statement (.store64 a v) := of_request _

end Sys2Proof.Laws.EncodedFields
end

