-- ==== Sys2Proof/Tests/Slice0.lean ====
section
/-! SUPPORT. Tests. Every expected result is from spec/95_test_vectors.md (sections named at each test) or read off the
encoding rules; the witnesses show a state and operands that meet the hypotheses of a statement of Obligations.lean. -/

namespace Sys2Proof.Machine.Tests

/-! ### Helpers -/

/-- The state an outcome goes on in. -/
def after (o : Host.Outcome State Fault Refusal) : State :=
  match o with
  | .next s    => s
  | .fault _   => State.reset
  | .refused _ => State.reset

/-- The state of section 3: `mem[0..15] = 08 07 06 05 04 03 02 01 EF BE AD DE 80 FF 00 7F`. -/
def image : State :=
  { State.reset with
    mem := [(0, 0x08#8), (1, 0x07#8), (2, 0x06#8), (3, 0x05#8), (4, 0x04#8), (5, 0x03#8), (6, 0x02#8), (7, 0x01#8)] ++
      [(8, 0xEF#8), (9, 0xBE#8), (10, 0xAD#8), (11, 0xDE#8), (12, 0x80#8), (13, 0xFF#8), (15, 0x7F#8)] }

/-- The state of section 4: `mem[0..15]` all `0xAA`. -/
def sentinel : State :=
  { State.reset with mem := (List.range 16).map fun i => (i, 0xAA#8) }

/-- The first cells after an operation. -/
def cells (n : Nat) (s : State) : List Byte := (List.range n).map s.mem.read

/-- A state with one request pending. -/
def pending (s : State) (w : ReqWord) : State := { s with requests := [w] }

/-- Small configurations of section 2. -/
def atTop : Config := ⟨16, 0xFFFFFFFFFFFFFFF0#64⟩
def atZero : Config := ⟨16, 0#64⟩
def tiny : Config := ⟨4, 0x1000#64⟩
def empty : Config := ⟨0, 0x1000#64⟩

/-! ### Well-formedness: what each check refuses -/

theorem test_config_past_the_top_is_ill_formed : Config.wf ⟨17, 0xFFFFFFFFFFFFFFF0#64⟩ = false := by decide
theorem test_config_up_to_the_top_is_well_formed : atTop.wf = true := by decide
theorem test_width_24_is_invalid : validWidth 24 = false := by decide
theorem test_width_64_is_valid : validWidth 64 = true := by decide
theorem test_width_256_cannot_be_presented : presentableWidth 256 = false := by decide
theorem test_memory_listing_a_zero_is_not_canonical : ¬ Memory.wf [(3, 0x00#8)] := by decide
theorem test_memory_out_of_order_is_not_canonical : ¬ Memory.wf [(4, 0x01#8), (3, 0x01#8)] := by decide
theorem test_image_is_canonical : image.WF := by decide

/-! ### Decoding: each constructor's word written out from R55 and R58 (section 5; P1 for LOAD32) -/

theorem test_decode_load8 :
    decode 0x00800000000800000000000000000000000#137 = .ok (.load8 0x80000000#64 0#64) := by rfl
theorem test_decode_load16 :
    decode 0x01000000000800FFFFF0000000000000000#137 = .ok (.load16 0x800FFFFF#64 0#64) := by rfl
theorem test_decode_load32 :
    decode 0x02000000000800000020000000000000000#137 = .ok (.load32 0x80000002#64 0#64) := by rfl
theorem test_decode_load64 :
    decode 0x0400000000080000000FFFFFFFFFFFFFFFF#137 = .ok (.load64 0x80000000#64 0xFFFFFFFFFFFFFFFF#64) := by rfl
theorem test_decode_store8 :
    decode 0x1080000000080000000000000000000000F#137 = .ok (.store8 0x80000000#64 0xF#64) := by rfl
theorem test_decode_store16 :
    decode 0x11000000000800FFFFF000000000000BEEF#137 = .ok (.store16 0x800FFFFF#64 0xBEEF#64) := by rfl
theorem test_decode_store32 :
    decode 0x120000000008000000800000000DEADBEEF#137 = .ok (.store32 0x80000008#64 0xDEADBEEF#64) := by rfl
theorem test_decode_store64 :
    decode 0x14000000000800000000102030405060708#137 = .ok (.store64 0x80000000#64 0x0102030405060708#64) := by rfl
theorem test_decode_load_24 : decode 0x01800000000800000000000000000000000#137 = .error .invalidWidth := by rfl
theorem test_decode_store_255 : decode 0x1FF00000000800000000000000000000000#137 = .error .invalidWidth := by rfl
theorem test_encode_store32 :
    encode (.store32 0x80000008#64 0xDEADBEEF#64) = 0x120000000008000000800000000DEADBEEF#137 := by decide
theorem test_table_word : decodeTableWord 144 0x11000000000000000000000000000000000 = some (.store16 0#64 0#64) := by
  decide

/-! ### Responses on the wires (section 5) -/

theorem test_rsp_value : (Response.okValue 15#64).pack 0#64 = 0x0000000000000000F#66 := by decide
theorem test_rsp_out_of_range : (Response.err .outOfRange).pack 0#64 = 0x10000000000000000#66 := by decide
theorem test_rsp_invalid_width : (Response.err .invalidWidth).pack 0#64 = 0x20000000000000000#66 := by decide

/-! ### The validator (section 2) -/

theorem test_span_past_two_to_the_64 : validate atTop 0xFFFFFFFFFFFFFFF9#64 64 = .error .outOfRange := by rfl
theorem test_span_to_the_last_address : validate atTop 0xFFFFFFFFFFFFFFF8#64 64 = .ok ⟨8, 8⟩ := by rfl
theorem test_sum_does_not_wrap : validate atZero 0xFFFFFFFFFFFFFFFF#64 64 = .error .outOfRange := by rfl
theorem test_no_cell_no_access : validate empty 0x1000#64 8 = .error .outOfRange := by rfl
theorem test_width_before_range : validate empty 0x1000#64 24 = .error .invalidWidth := by rfl
theorem test_width_before_base : validate Config.reference 0x7FFFFFFF#64 24 = .error .invalidWidth := by rfl

/-! ### Loads (section 3) -/

theorem test_load8_zero_extends :
    (after (exec (.load8 0x8000000D#64 0#64) image)).response = some (.okValue 0xFF#64) := by decide
theorem test_load8_below_base :
    (after (exec (.load8 0x7FFFFFFF#64 0#64) image)).response = some (.err .outOfRange) := by decide
theorem test_load16_odd :
    (after (exec (.load16 0x80000001#64 0#64) image)).response = some (.okValue 0x0607#64) := by decide
theorem test_load16_no_partial_value :
    (after (exec (.load16 0x800FFFFF#64 0#64) image)).response = some (.err .outOfRange) := by decide
theorem test_load32_crosses_words :
    (after (exec (.load32 0x80000005#64 0#64) image)).response = some (.okValue 0xEF010203#64) := by decide
theorem test_load32_bit_31_set :
    (after (exec (.load32 0x80000008#64 0#64) image)).response = some (.okValue 0xDEADBEEF#64) := by decide
theorem test_load64_aligned :
    (after (exec (.load64 0x80000008#64 0#64) image)).response = some (.okValue 0x7F00FF80DEADBEEF#64) := by decide
theorem test_load64_misaligned_by_3 :
    (after (exec (.load64 0x80000003#64 0#64) image)).response = some (.okValue 0xADBEEF0102030405#64) := by decide

/-! ### Stores (section 4) -/

theorem test_store8_drops_bit_8 :
    cells 5 (after (exec (.store8 0x80000003#64 0x100#64) sentinel)) = [0xAA#8, 0xAA#8, 0xAA#8, 0x00#8, 0xAA#8] := by
  decide
theorem test_store8_below_base : (after (exec (.store8 0x7FFFFFFF#64 0x55#64) sentinel)).mem = sentinel.mem := by
  decide
theorem test_store16_odd :
    cells 8 (after (exec (.store16 0x80000005#64 0xABCD1234#64) sentinel)) =
      [0xAA#8, 0xAA#8, 0xAA#8, 0xAA#8, 0xAA#8, 0x34#8, 0x12#8, 0xAA#8] := by decide
theorem test_store16_at_base_less_one :
    (after (exec (.store16 0x7FFFFFFF#64 0x5555#64) sentinel)).mem = sentinel.mem := by decide
theorem test_store32_misaligned :
    cells 11 (after (exec (.store32 0x80000006#64 0xFFFFFFFF00000001#64) sentinel)) =
      [0xAA#8, 0xAA#8, 0xAA#8, 0xAA#8, 0xAA#8, 0xAA#8, 0x01#8, 0x00#8, 0x00#8, 0x00#8, 0xAA#8] := by decide
theorem test_store64_little_endian :
    cells 9 (after (exec (.store64 0x80000000#64 0x0102030405060708#64) sentinel)) =
      [0x08#8, 0x07#8, 0x06#8, 0x05#8, 0x04#8, 0x03#8, 0x02#8, 0x01#8, 0xAA#8] := by decide
theorem test_store64_of_zero_writes_zeros :
    cells 11 (after (exec (.store64 0x80000002#64 0#64) sentinel)) =
      [0xAA#8, 0xAA#8, 0x00#8, 0x00#8, 0x00#8, 0x00#8, 0x00#8, 0x00#8, 0x00#8, 0x00#8, 0xAA#8] := by decide

/-! ### The step -/

/-- `store(B, 24, 0xFFFFFF)` (section 4): answered, nothing written. -/
theorem test_step_invalid_width :
    step (pending sentinel 0x11800000000800000000000000000FFFFFF#137) =
      .next { sentinel with response := some (.err .invalidWidth) } := by rfl

/-- `store(B-1, 24, 0x55)` (P3 step 12): `InvalidWidth`, not `OutOfRange`. -/
theorem test_step_width_error_first :
    (after (step (pending sentinel 0x118000000007FFFFFFF0000000000000055#137))).response =
      some (.err .invalidWidth) := by decide

/-- The source's example (E1), as the first step after reset. -/
theorem test_first_step_after_reset :
    after (step (State.reset.withFetchWord 144 0x1080000000080000000000000000000000F)) =
      { State.reset with mem := [(0, 0x0F#8)], response := some .ok } := by decide

/-! ### Witnesses: the hypotheses of each statement can be met, at the ends of their ranges -/

/-- A store of 64 bits at the top of the window (P3 step 1) and what follows it. -/
def storeWord : ReqWord := 0x14000000000800FFFF81122334455667788#137
def loadWord : ReqWord := 0x00800000000800FFFFF0000000000000000#137
def badWord : ReqWord := 0x11800000000800FFFFE0000000000FFFFFF#137
def badBelow : ReqWord := 0x118000000007FFFFFFF0000000000000055#137
def pastEnd : ReqWord := 0x11000000000800FFFFF000000000000BEEF#137
def topStore : State := after (step (pending image storeWord))

theorem witness_CreationZeroFillsTheArray :
    0xFFFFF < Config.reference.capacity ∧
    (image.config.InRange 0x80000010#64 Width.w64.bytes ∧
      ∀ k, k < Width.w64.bytes → image.mem.read (image.config.index 0x80000010#64 + k) = 0x00#8) ∧
    core.run [storeWord].length { State.create Config.reference with requests := [storeWord] } =
      .next (after (step { State.create Config.reference with requests := [storeWord] })) ∧
    Config.reference.InRange 0x800FFFF7#64 Width.w8.bytes ∧
    ∀ k, k < Width.w8.bytes → ∀ x ∈ [storeWord],
      Spec.writes Config.reference (Config.reference.index 0x800FFFF7#64 + k) (Request.unpack x) = false :=
  ⟨by decide, by decide, by rfl, by decide, fun k hk x hx => by
    obtain rfl : k = 0 := Nat.lt_one_iff.1 hk
    obtain rfl := List.mem_singleton.1 hx
    rfl⟩
theorem witness_ResetMeetsTheInvariant : atTop.wf = true := by decide
theorem witness_StepKeepsTheInvariant :
    (pending image storeWord).WF ∧ step (pending image storeWord) = .next topStore := ⟨by decide, by rfl⟩
theorem witness_StepKeepsTheConfiguration : step (pending image storeWord) = .next topStore := by rfl
theorem witness_EveryRequestGetsOneResponse : (pending image badWord).requests = [badWord] := by rfl
theorem witness_StepRunsTheDecodedInstruction :
    (pending image storeWord).requests = [storeWord] ∧
    decode storeWord = .ok (.store64 0x800FFFF8#64 0x1122334455667788#64) ∧
    (Instr.store64 0x800FFFF8#64 0x1122334455667788#64).wf = true := ⟨by rfl, by rfl, by rfl⟩
theorem witness_InvalidWidthIsAnsweredAndChangesNothing :
    (pending image badWord).requests = [badWord] ∧ (widthField badWord).toNat ∉ [8, 16, 32, 64] := by decide
theorem witness_EveryOtherWidthOfAnOperationIsInvalid :
    7 ∉ [8, 16, 32, 64] ∧ 65 ∉ [8, 16, 32, 64] ∧ 256 ∉ [8, 16, 32, 64] := by decide
theorem witness_IdleBlockStaysAsItIs : State.reset.requests = [] := by rfl
theorem witness_PlacedRequestRunsNext : (Instr.load8 0#64 0#64).wf = true := by rfl
theorem witness_DecodeAndEncodeAgree :
    (Instr.load64 0xFFFFFFFFFFFFFFFF#64 0#64).wf = true ∧
    decode storeWord = .ok (.store64 0x800FFFF8#64 0x1122334455667788#64) := ⟨by rfl, by rfl⟩
theorem witness_RequestWordLayout :
    cmdField loadWord = cmdField 0x00800000000800000000000000000000000#137 ∧
    decode loadWord = .ok (.load8 0x800FFFFF#64 0#64) ∧
    decode 0x00800000000800000000000000000000000#137 = .ok (.load8 0x80000000#64 0#64) :=
  ⟨by decide, by rfl, by rfl⟩
theorem witness_DataLinesWithoutAValueAreFree :
    ({ image with response := some .ok } : State).response = some .ok ∧ ∀ v, Response.ok ≠ .okValue v :=
  ⟨by rfl, fun _ => nofun⟩
theorem witness_ByteCountTable : bytesOf (64#8).toNat = some 8 ∧ bytesOf (8#8).toNat = some 1 := by decide
theorem witness_BelowBaseIsAnExplicitError :
    (0x7FFFFFFF#64 : Addr).toNat < Config.reference.baseAddress.toNat := by decide
theorem witness_OffsetIsTheDifference :
    Config.reference.baseAddress.toNat ≤ (0x80000000#64 : Addr).toNat := by decide
theorem witness_WindowNamesCellsOneToOne :
    atTop.wf = true ∧ 15 < atTop.capacity ∧ offsetOf atTop 0xFFFFFFFFFFFFFFFF#64 = some 15 := by decide
theorem witness_BoundsCheckIsOnTheWholeSpan :
    tiny.InRange 0x1000#64 Width.w32.bytes ∧ ¬ tiny.InRange 0x1001#64 Width.w32.bytes ∧
    (Width.w16.bytes ≤ tiny.capacity ∧
      (0x1002#64 : Addr).toNat = tiny.baseAddress.toNat + tiny.capacity - Width.w16.bytes) ∧
    tiny.baseAddress.toNat + tiny.capacity < (0x1003#64 : Addr).toNat + Width.w16.bytes ∧
    (0x1004#64 : Addr).toNat = tiny.baseAddress.toNat + tiny.capacity := by decide
theorem witness_FixedWidthFormsAgree : atTop.wf = true ∧ 8 ≤ atTop.baseAddress.toNat := by decide
theorem witness_OutsideTheWindowEveryAccessIsRejected :
    ¬ image.config.InWindow 0x80100000#64 ∧ ¬ image.config.InWindow 0x7FFFFFFF#64 ∧
    (pending image 0x10800000000801000000000000000000055#137).requests =
      [0x10800000000801000000000000000000055#137] ∧
    ¬ image.config.InWindow (addrField 0x10800000000801000000000000000000055#137) := by decide
theorem witness_AnyOffsetMayStartAnAccess :
    image.config.wf = true ∧ 0xFFFFB + Width.w32.bytes ≤ image.config.capacity := by decide
theorem witness_UnpackerAssemblesLittleEndian : 8 ≤ 8 := by decide
theorem witness_PackerWritesTheSpanOnly : 7 < 8 ∧ (8 < 8 ∨ 0 + 8 ≤ 8) ∧ image.mem.wf := by decide
theorem witness_MixedWidthsSeeTheCells :
    image.config.wf = true ∧ 0xFFFF8 + 8 ≤ image.config.capacity ∧
    exec (.store32 (image.config.addrOf 0xFFFF8) 0xAABBCCDD#64) image =
      .next (after (exec (.store32 (image.config.addrOf 0xFFFF8) 0xAABBCCDD#64) image)) :=
  ⟨by decide, by decide, by rfl⟩

theorem witness_Load8ReturnsTheCell :
    image.config.InRange 0x800FFFFF#64 1 ∧
    ((0x7FFFFFFF#64 : Addr).toNat < image.config.baseAddress.toNat) ∧
    image.config.index 0x80100000#64 ≥ image.config.capacity := by decide
theorem witness_Load16ReturnsTwoCells :
    image.config.InRange 0x800FFFFE#64 2 ∧ image.config.index 0x800FFFFF#64 + 2 > image.config.capacity := by decide
theorem witness_Load32ReturnsFourCells :
    image.config.InRange 0x800FFFFC#64 4 ∧ image.config.index 0x800FFFFD#64 + 4 > image.config.capacity := by decide
theorem witness_Load64ReturnsEightCells :
    image.config.InRange 0x800FFFF8#64 8 ∧ image.config.index 0x800FFFF9#64 + 8 > image.config.capacity ∧
    (State.create tiny).config.capacity < 8 := by decide
theorem witness_Store8WritesTheCell :
    image.config.InRange 0x800FFFFF#64 1 ∧
    ((0x7FFFFFFF#64 : Addr).toNat < image.config.baseAddress.toNat) ∧
    image.config.index 0x80100000#64 ≥ image.config.capacity := by decide
theorem witness_Store16WritesTwoCells :
    image.config.InRange 0x800FFFFE#64 2 ∧ image.config.index 0x800FFFFF#64 + 2 > image.config.capacity := by decide
theorem witness_Store32WritesFourCells :
    image.config.InRange 0x800FFFFC#64 4 ∧ image.config.index 0x800FFFFD#64 + 4 > image.config.capacity := by decide
theorem witness_Store64WritesEightCells :
    image.config.InRange 0x800FFFF8#64 8 ∧ image.config.index 0x800FFFF9#64 + 8 > image.config.capacity ∧
    (State.create tiny).config.capacity < 8 := by decide

/-- Two stores in one state, at the ends of the array, and what they leave. -/
def low : State := after (exec (storeOf .w16 0x80000004#64 0x1234#64) image)
def lowHigh : State := after (exec (storeOf .w32 0x800FFFFC#64 0xDEADBEEF#64) low)
def high : State := after (exec (storeOf .w32 0x800FFFFC#64 0xDEADBEEF#64) image)
def highLow : State := after (exec (storeOf .w16 0x80000004#64 0x1234#64) high)
def read : State := after (exec (loadOf .w8 0x8000000D#64 0#64) image)

theorem witness_LoadChangesNothing : exec (loadOf .w8 0x8000000D#64 0#64) image = .next read := by rfl
theorem witness_StoreFrame :
    exec (storeOf .w16 0x80000004#64 0x1234#64) image = .next low ∧
    offsetOf image.config 0x80000004#64 = some 4 ∧ (3 < 4 ∨ 4 + Width.w16.bytes ≤ 3) ∧
    exec (storeOf .w16 0x800FFFFF#64 0xBEEF#64) image =
      .next (after (exec (storeOf .w16 0x800FFFFF#64 0xBEEF#64) image)) ∧
    ¬ image.config.InRange 0x800FFFFF#64 Width.w16.bytes := ⟨by rfl, by decide, by decide, by rfl, by decide⟩
theorem witness_LoadZeroExtends :
    exec (loadOf .w8 0x8000000D#64 0#64) image = .next read ∧ read.response = some (.okValue 0xFF#64) :=
  ⟨by rfl, by decide⟩
theorem witness_StoreThenLoadReturnsTheValue :
    exec (storeOf .w16 0x80000004#64 0x1234#64) image = .next low ∧ low.response = some .ok := ⟨by rfl, by decide⟩
theorem witness_ByteViewOfAStore :
    image.config.wf = true ∧ 1 < Width.w16.bytes ∧
    exec (storeOf .w16 0x80000004#64 0x1234#64) image = .next low ∧ low.response = some .ok :=
  ⟨by decide, by decide, by rfl, by decide⟩
theorem witness_LoadAndStoreAgreeOnTheVerdict :
    exec (loadOf .w8 0x8000000D#64 0#64) image = .next read ∧
    exec (storeOf .w8 0x8000000D#64 0#64) image = .next (after (exec (storeOf .w8 0x8000000D#64 0#64) image)) :=
  ⟨by rfl, by rfl⟩
theorem witness_LastStoreWins :
    exec (storeOf .w16 0x80000004#64 0x1234#64) image = .next low ∧ low.response = some .ok ∧
    exec (storeOf .w32 0x800FFFFC#64 0xDEADBEEF#64) low = .next lowHigh ∧ lowHigh.response = some .ok ∧
    3 < Width.w32.bytes ∧ 1 < Width.w16.bytes ∧
    low.config.index 0x80000004#64 + 1 < low.config.index 0x800FFFFC#64 :=
  ⟨by rfl, by decide, by rfl, by decide, by decide, by decide, by decide⟩
theorem witness_DisjointStoresCommute :
    image.mem.wf ∧ image.config.index 0x80000004#64 + Width.w16.bytes ≤ image.config.index 0x800FFFFC#64 ∧
    exec (storeOf .w16 0x80000004#64 0x1234#64) image = .next low ∧
    exec (storeOf .w32 0x800FFFFC#64 0xDEADBEEF#64) low = .next lowHigh ∧
    exec (storeOf .w32 0x800FFFFC#64 0xDEADBEEF#64) image = .next high ∧
    exec (storeOf .w16 0x80000004#64 0x1234#64) high = .next highLow ∧
    low.response = some .ok ∧ lowHigh.response = some .ok :=
  ⟨by decide, by decide, by rfl, by rfl, by rfl, by rfl, by decide, by decide⟩
theorem witness_RepeatedStoreChangesNothing :
    image.mem.wf ∧ exec (storeOf .w16 0x80000004#64 0x1234#64) image = .next low ∧ low.response = some .ok :=
  ⟨by decide, by rfl, by decide⟩

theorem witness_ErrorChangesNoState :
    (pending image badWord).requests = [badWord] ∧
    step (pending image badWord) = .next (after (step (pending image badWord))) ∧
    (after (step (pending image badWord))).response = some (.err .invalidWidth) := ⟨by rfl, by rfl, by decide⟩
theorem witness_OnlyASuccessfulStoreChangesACell :
    (pending image storeWord).requests = [storeWord] ∧ step (pending image storeWord) = .next topStore ∧
    topStore.mem ≠ (pending image storeWord).mem := ⟨by rfl, by rfl, by decide⟩
theorem witness_EachErrorHasItsCause :
    (pending image loadWord).requests = [loadWord] ∧
    step (pending image loadWord) = .next (after (step (pending image loadWord))) := ⟨by rfl, by rfl⟩
/-- `store(B-1, 24, 0x55)` (P3 step 12): both causes at once. -/
theorem witness_EachErrorHasItsCause_invalid_width :
    (pending image badBelow).requests = [badBelow] ∧
    step (pending image badBelow) = .next (after (step (pending image badBelow))) ∧
    (after (step (pending image badBelow))).response = some (.err .invalidWidth) ∧
    (widthField badBelow).toNat ∉ [8, 16, 32, 64] := ⟨by rfl, by rfl, by decide, by decide⟩
/-- `store(B+C-1, 16, 0xBEEF)` (P3 step 2): the second byte is past the last cell. -/
theorem witness_EachErrorHasItsCause_out_of_range :
    (pending image pastEnd).requests = [pastEnd] ∧
    step (pending image pastEnd) = .next (after (step (pending image pastEnd))) ∧
    (after (step (pending image pastEnd))).response = some (.err .outOfRange) ∧
    (widthField pastEnd).toNat ∈ [8, 16, 32, 64] ∧
    ¬ image.config.InRange (addrField pastEnd) ((widthField pastEnd).toNat / 8) :=
  ⟨by rfl, by rfl, by decide, by decide, by decide⟩
theorem witness_EveryOperationIsIndependent :
    image.config = topStore.config ∧ image.mem = { topStore with mem := image.mem }.mem ∧
    exec (.load8 0x8000000D#64 0#64) image = .next read ∧
    exec (.load8 0x8000000D#64 0#64) { topStore with mem := image.mem } =
      .next (after (exec (.load8 0x8000000D#64 0#64) { topStore with mem := image.mem })) :=
  ⟨by decide, by rfl, by rfl, by rfl⟩
theorem witness_StepRefinesLoadAndStore : (pending image storeWord).requests = [storeWord] := by rfl
theorem witness_NextStepKeepsTheLatestStores :
    (∀ i, (pending image storeWord).mem.read i =
      Spec.latest (pending image storeWord).config (image.mem.read i) i (([] : List ReqWord).map Request.unpack)) ∧
    (pending image storeWord).requests = [storeWord] ∧ step (pending image storeWord) = .next topStore :=
  ⟨fun _ => rfl, by rfl, by rfl⟩

end Sys2Proof.Machine.Tests
end

section
/-! PROOFS. The configuration of a block: no step writes it (spec 00_scope.md R8, 10_state.md R15, R16), and in a
well-formed one (00_scope.md R9) the fixed-width forms of the bounds check are the check itself (20_memory.md R37). -/

namespace Sys2Proof

theorem Config.wf_iff (c : Config) : c.wf = true ↔ c.baseAddress.toNat + c.capacity ≤ 2 ^ 64 :=
  decide_eq_true_iff

theorem Width.bytes_pos (w : Width) : 0 < w.bytes := by cases w <;> decide

theorem Width.bytes_le_eight (w : Width) : w.bytes ≤ 8 := by cases w <;> decide

namespace Machine

/-! ### No operation and no step writes the configuration -/

theorem exec_keeps_config {i : Instr} {s t : State} (h : exec i s = .next t) : t.config = s.config := by
  rcases exec_cases h with ⟨e, rfl⟩ | ⟨w, a, d, -, -, rfl⟩ | ⟨w, a, v, -, -, rfl⟩
  · exact State.raise_config s e
  · exact State.respond_config s _
  · rw [State.respond_config, State.setMem_config]

theorem step_keeps_config {s t : State} (h : step s = .next t) : t.config = s.config := by
  rcases step_cases h with ⟨-, rfl⟩ | ⟨w, rest, -, ⟨i, -, hi⟩ | ⟨-, rfl⟩⟩
  · rfl
  · exact (exec_keeps_config hi).trans (State.taken_config s rest)
  · exact State.raise_config (s.taken rest) _

/-! ### The fixed-width forms of the bounds check -/

/-- At or above the base the guarded 64-bit subtraction of R37 is the offset: it does not borrow. -/
theorem toNat_sub_base {c : Config} {a : Addr} (h : c.baseAddress ≤ a) :
    (a - c.baseAddress).toNat = c.index a :=
  BitVec.toNat_sub_of_le h

/-- An offset and the base sum to an address, so the offset leaves the base's distance below `2^64` (R30). -/
theorem index_add_base_lt {c : Config} {a : Addr} (h : c.baseAddress ≤ a) :
    c.index a + c.baseAddress.toNat < 2 ^ 64 := by
  have ha : c.baseAddress.toNat ≤ a.toNat := h
  rw [Config.index, Nat.sub_add_cancel ha]
  exact a.isLt

/-- The bound of form A is exact: `CAPACITY - n` is below `2^64` as soon as a byte is accessed. -/
theorem inRangeA_iff {c : Config} (a : Addr) {n : Nat} (hc : c.wf = true) (hn : 0 < n) :
    inRangeA c a n = true ↔ c.InRange a n := by
  rw [Config.wf_iff] at hc
  simp only [inRangeA, Bool.and_eq_true, decide_eq_true_iff, and_assoc]
  refine and_congr_right fun hb => ?_
  rw [BitVec.le_def, toNat_sub_base hb, BitVec.toNat_ofNat]
  constructor
  · rintro ⟨hcap, hle⟩
    rw [Nat.mod_eq_of_lt (by omega)] at hle
    omega
  · intro hr
    refine ⟨by omega, ?_⟩
    rw [Nat.mod_eq_of_lt (by omega)]
    omega

/-- The sum of form B does not wrap: an offset and a byte count, each within 64 bits, sum within 65. -/
theorem inRangeB_iff {c : Config} (a : Addr) {n : Nat} (hc : c.wf = true) (hn : n ≤ 2 ^ 64) :
    inRangeB c a n = true ↔ c.InRange a n := by
  rw [Config.wf_iff] at hc
  simp only [inRangeB, Bool.and_eq_true, decide_eq_true_iff]
  refine and_congr_right fun hb => ?_
  have hi := index_add_base_lt hb
  rw [BitVec.le_def, BitVec.toNat_add, BitVec.toNat_setWidth, toNat_sub_base hb, BitVec.toNat_ofNat,
    BitVec.toNat_ofNat, Nat.mod_eq_of_lt (a := c.index a) (by omega), Nat.mod_eq_of_lt (a := n) (by omega),
    Nat.mod_eq_of_lt (a := c.capacity) (by omega), Nat.mod_eq_of_lt (by omega)]

/-- A base at or above the byte count leaves the 64-bit sum room for it, so the sum does not wrap. -/
theorem inRangeWrapping_iff {c : Config} (a : Addr) {n : Nat} (hc : c.wf = true) (hn : 0 < n)
    (hbase : n ≤ c.baseAddress.toNat) : inRangeWrapping c a n = true ↔ c.InRange a n := by
  rw [Config.wf_iff] at hc
  simp only [inRangeWrapping, Bool.and_eq_true, decide_eq_true_iff]
  refine and_congr_right fun hb => ?_
  have hi := index_add_base_lt hb
  rw [BitVec.le_def, BitVec.toNat_add, toNat_sub_base hb, BitVec.toNat_ofNat, BitVec.toNat_ofNat,
    Nat.mod_eq_of_lt (a := n) (by omega), Nat.mod_eq_of_lt (a := c.capacity) (by omega),
    Nat.mod_eq_of_lt (by omega)]

/-! ### The obligations -/

/-- Settles O4: an operation fails, loads or stores, and none of the three writes the configuration. -/
theorem stepKeepsTheConfiguration : Obligations.StepKeepsTheConfiguration :=
  fun _ _ h => step_keeps_config h

/-- Settles O22: in a well-formed configuration no subtraction or sum of the forms wraps; `BASE_ADDRESS = 0` and
`CAPACITY = 16` is where the 64-bit sum does. -/
theorem fixedWidthFormsAgree : Obligations.FixedWidthFormsAgree := by
  refine ⟨fun c a w hc => ⟨?_, ?_, fun hbase => ?_⟩, by decide, by decide⟩
  · exact inRangeA_iff a hc w.bytes_pos
  · exact inRangeB_iff a hc (w.bytes_le_eight.trans (by norm_num))
  · exact inRangeWrapping_iff a hc w.bytes_pos (w.bytes_le_eight.trans hbase)

end Machine

end Sys2Proof
end

section
/-! PROOFS. The storage array over time: creation leaves every cell zero and a cell that no store touches stays so
(spec 10_state.md R24), only a successful store changes the array (60_exceptions.md R82), and an operation sees nothing of
the state but the array and the configuration (10_state.md R19). -/

namespace Sys2Proof

theorem Width.bits_div_eight (w : Width) : w.bits / 8 = w.bytes := by cases w <;> rfl

namespace Machine

/-! ### What one step does to the stream and to a cell no store touches -/

theorem step_takes_request {s t : State} {w : ReqWord} {rest : List ReqWord} (h : s.requests = w :: rest)
    (hs : step s = .next t) : t.requests = rest := by
  rcases step_answers h with ⟨-, he⟩ | ⟨x, -, ⟨-, he⟩ | ⟨-, -, he⟩ | ⟨-, -, he⟩⟩ <;>
  · obtain rfl := Host.Outcome.next.inj (hs.symm.trans he)
    rfl

/-- The array after a step is the one before it, unless the step was a store that passed the checks (R82). -/
theorem step_mem {s t : State} {w : ReqWord} {rest : List ReqWord} (h : s.requests = w :: rest)
    (hs : step s = .next t) :
    t.mem = s.mem ∨
    ∃ x : Width, (widthField w).toNat = x.bits ∧ opField w = .store ∧ s.config.InRange (addrField w) x.bytes ∧
      t.mem = s.mem.scatter (s.config.index (addrField w)) (wdataField w) x.bytes ∧ t.response = some .ok := by
  rcases step_answers h with ⟨-, he⟩ | ⟨x, hx, ⟨-, he⟩ | ⟨-, -, he⟩ | ⟨hr, ho, he⟩⟩ <;>
    obtain rfl := Host.Outcome.next.inj (hs.symm.trans he)
  · exact .inl rfl
  · exact .inl rfl
  · exact .inl rfl
  · exact .inr ⟨x, hx, ho, hr, rfl, rfl⟩

/-- The plain verdict passes every span in range of a valid width. -/
theorem Spec.verdict_of_inRange {c : Config} {a : Addr} {w : Width} (h : c.InRange a w.bytes) :
    Spec.verdict c a w.bits = none := by
  have hw : w.bits ∈ [8, 16, 32, 64] := by cases w <;> decide
  rw [Spec.verdict, if_neg (not_not.2 hw), if_neg h.1.not_gt, w.bits_div_eight, if_neg h.2.not_gt]

/-- A store of a valid width in range touches exactly the cells of its span. -/
theorem Spec.writes_of_store {c : Config} {w : ReqWord} {x : Width} (hx : (widthField w).toNat = x.bits)
    (ho : opField w = .store) (hr : c.InRange (addrField w) x.bytes) (i : Nat) :
    Spec.writes c i (Request.unpack w) = true ↔
      c.index (addrField w) ≤ i ∧ i < c.index (addrField w) + x.bytes := by
  simp [Spec.writes, Request.unpack, ho, hx, Spec.verdict_of_inRange hr, x.bits_div_eight]

theorem step_keeps_untouched_cell {s t : State} {w : ReqWord} {rest : List ReqWord} {i : Nat}
    (h : s.requests = w :: rest) (hs : step s = .next t)
    (hi : Spec.writes s.config i (Request.unpack w) = false) : t.mem.read i = s.mem.read i := by
  rcases step_mem h hs with hm | ⟨x, hx, ho, hr, hm, -⟩
  · rw [hm]
  · have hout := mt (Spec.writes_of_store hx ho hr i).2 (Bool.eq_false_iff.1 hi)
    rw [hm, Memory.read_scatter, if_neg hout]

/-! ### Runs -/

/-- A run of one more step that answers a next state goes through the state the first step answers. -/
theorem run_succ_cases {s t : State} {k : Nat} (h : core.run (k + 1) s = .next t) :
    ∃ u : State, step s = .next u ∧ core.run k u = .next t := by
  have h := (Host.Core.run.eq_2 core s k).symm.trans h
  split at h
  · next u hu => exact ⟨u, hu, h⟩
  · cases h
  · cases h

theorem run_keeps_config {s t : State} {k : Nat} (h : core.run k s = .next t) : t.config = s.config := by
  induction k generalizing s with
  | zero => rw [← Host.Outcome.next.inj h]
  | succ k ih =>
    obtain ⟨u, hu, hrun⟩ := run_succ_cases h
    exact (ih hrun).trans (step_keeps_config hu)

/-- A cell that no successful store of the stream touches holds after the stream what it held before. -/
theorem run_keeps_untouched_cell {ws : List ReqWord} {s t : State} {i : Nat} (h : s.requests = ws)
    (hrun : core.run ws.length s = .next t)
    (hi : ∀ x ∈ ws, Spec.writes s.config i (Request.unpack x) = false) : t.mem.read i = s.mem.read i := by
  induction ws generalizing s with
  | nil => rw [← Host.Outcome.next.inj hrun]
  | cons w rest ih =>
    obtain ⟨u, hu, hrun⟩ := run_succ_cases hrun
    obtain ⟨hw, hrest⟩ := List.forall_mem_cons.1 hi
    rw [← step_keeps_config hu] at hrest
    exact (ih (step_takes_request h hu) hrun hrest).trans (step_keeps_untouched_cell h hu hw)

/-! ### Loading zero cells -/

theorem Memory.gather_of_read_zero {m : Memory} {off n : Nat} (h : ∀ k, k < n → m.read (off + k) = 0x00#8) :
    m.gather off n = 0#64 := by
  induction n with
  | zero => rfl
  | succ n ih =>
    rw [Memory.gather, ih fun k hk => h k (by omega), h n (by omega)]
    simp

theorem exec_loadOf_of_read_zero {s : State} {w : Width} {a : Addr} (d : Word)
    (hr : s.config.InRange a w.bytes)
    (hz : ∀ k, k < w.bytes → s.mem.read (s.config.index a + k) = 0x00#8) :
    exec (loadOf w a d) s = .next (s.respond (.okValue 0#64)) := by
  rw [exec_loadOf, operate_load, if_pos hr, Memory.gather_of_read_zero hz]

/-! ### What an operation sees of the state -/

/-- The configuration and the array fix the response and the next array before the rest of the state is known. -/
theorem exec_of_config_mem (i : Instr) (c : Config) (m : Memory) :
    ∃ (m' : Memory) (r : Response), ∀ s : State, s.config = c → s.mem = m →
      exec i s = .next ((s.setMem m').respond r) := by
  rcases instr_cases i with ⟨w, a, d, rfl⟩ | ⟨w, a, v, rfl⟩
  · simp only [exec_loadOf, operate_load]
    by_cases hr : c.InRange a w.bytes
    · exact ⟨m, .okValue (m.gather (c.index a) w.bytes), by rintro s rfl rfl; exact if_pos hr⟩
    · exact ⟨m, .err .outOfRange, by rintro s rfl rfl; exact if_neg hr⟩
  · simp only [exec_storeOf, operate_store]
    by_cases hr : c.InRange a w.bytes
    · exact ⟨m.scatter (c.index a) v w.bytes, .ok, by rintro s rfl rfl; exact if_pos hr⟩
    · exact ⟨m, .err .outOfRange, by rintro s rfl rfl; exact if_neg hr⟩

/-! ### The obligations -/

/-- Settles O1: the array at creation lists no cell; a cell that reads zero adds nothing to a load; a run leaves the cells
no store touches as creation left them. -/
theorem creationZeroFillsTheArray : Obligations.CreationZeroFillsTheArray := by
  refine ⟨fun _ i _ => Memory.read_nil i, fun s w a d hr hz => exec_loadOf_of_read_zero d hr hz, ?_⟩
  intro c ws t w a d hrun hr hw
  have hc : t.config = c := run_keeps_config hrun
  have hz : ∀ k, k < w.bytes → t.mem.read (c.index a + k) = 0x00#8 := fun k hk =>
    run_keeps_untouched_cell (s := { State.create c with requests := ws }) rfl hrun (hw k hk)
  rw [← hc] at hr hz
  exact exec_loadOf_of_read_zero d hr hz

/-- Settles O48: of the four answers to a request only the store in range touches the array, and it responds `Ok`. -/
theorem onlyASuccessfulStoreChangesACell : Obligations.OnlyASuccessfulStoreChangesACell := by
  intro s t w rest h hs hne
  rcases step_mem h hs with hm | ⟨-, -, ho, -, -, hresp⟩
  · exact absurd hm hne
  · exact ⟨ho, hresp⟩

/-- Settles O50: two states with one configuration and one array are given the same array and response. -/
theorem everyOperationIsIndependent : Obligations.EveryOperationIsIndependent := by
  intro s s' t t' i hc hm h h'
  obtain ⟨m', r, hexec⟩ := exec_of_config_mem i s.config s.mem
  obtain rfl := Host.Outcome.next.inj ((hexec s rfl rfl).symm.trans h)
  obtain rfl := Host.Outcome.next.inj ((hexec s' hc.symm hm.symm).symm.trans h')
  exact ⟨rfl, rfl⟩

end Machine

end Sys2Proof
end

section
/-! PROOFS. The address-offset decoder and the bounds validator (spec 20_memory.md R28 to R37, R43): window addresses and
cells correspond one to one, the verdict is the bounds check on the whole span, and since every span handed over has
passed it, no operation stops the machine (R36, R91). -/

namespace Sys2Proof

/-! ### The window and its cells -/

/-- In a well-formed configuration the address of a cell does not wrap (R9). -/
theorem Config.addrOf_toNat {c : Config} {i : Nat} (hc : c.wf = true) (hi : i < c.capacity) :
    (c.addrOf i).toNat = c.baseAddress.toNat + i := by
  rw [Config.wf_iff] at hc
  rw [Config.addrOf, BitVec.toNat_add, BitVec.toNat_ofNat, Nat.add_mod_mod, Nat.mod_eq_of_lt (by omega)]

theorem Config.index_addrOf {c : Config} {i : Nat} (hc : c.wf = true) (hi : i < c.capacity) :
    c.index (c.addrOf i) = i := by
  rw [Config.index, Config.addrOf_toNat hc hi, Nat.add_sub_cancel_left]

/-- The span at a cell is in range as soon as it ends inside the array. -/
theorem Config.inRange_addrOf {c : Config} {i n : Nat} (hc : c.wf = true) (hn : 0 < n) (hi : i + n ≤ c.capacity) :
    c.InRange (c.addrOf i) n := by
  have hcap : i < c.capacity := by omega
  rw [Config.InRange, Config.index_addrOf hc hcap, Config.addrOf_toNat hc hcap]
  exact ⟨Nat.le_add_right _ _, hi⟩

/-- The first byte of a span in range has an address of the window. -/
theorem Config.InRange.inWindow {c : Config} {a : Addr} {n : Nat} (h : c.InRange a n) (hn : 0 < n) :
    c.InWindow a := by
  obtain ⟨hbase, hend⟩ := h
  rw [Config.index] at hend
  exact ⟨hbase, by omega⟩

/-- Every byte of a span in range is in range itself, at the address counted on from the span's first; in a well-formed
configuration that sum of addresses does not wrap. -/
theorem Config.index_add_of_inRange {c : Config} {a : Addr} {n k : Nat} (hc : c.wf = true) (h : c.InRange a n)
    (hk : k < n) :
    c.index (a + BitVec.ofNat 64 k) = c.index a + k ∧ c.InRange (a + BitVec.ofNat 64 k) 1 := by
  obtain ⟨hbase, hend⟩ := h
  rw [Config.wf_iff] at hc
  rw [Config.index] at hend
  have ha : (a + BitVec.ofNat 64 k).toNat = a.toNat + k := by
    rw [BitVec.toNat_add, BitVec.toNat_ofNat, Nat.add_mod_mod, Nat.mod_eq_of_lt (by omega)]
  rw [Config.InRange, Config.index, Config.index, ha]
  omega

namespace Machine

/-! ### The decoder and the validator -/

theorem offsetOf_eq_none {c : Config} {a : Addr} (h : a.toNat < c.baseAddress.toNat) : offsetOf c a = none :=
  if_pos h

theorem offsetOf_eq_index {c : Config} {a : Addr} (h : c.baseAddress.toNat ≤ a.toNat) :
    offsetOf c a = some (c.index a) :=
  if_neg h.not_gt

/-- The address whose offset is `i` lies `i` above the base, so an offset names one address. -/
theorem toNat_of_offsetOf {c : Config} {a : Addr} {i : Nat} (h : offsetOf c a = some i) :
    a.toNat = c.baseAddress.toNat + i := by
  rcases Nat.lt_or_ge a.toNat c.baseAddress.toNat with hlt | hge
  · rw [offsetOf_eq_none hlt] at h
    cases h
  · rw [offsetOf_eq_index hge, Option.some_inj, Config.index] at h
    omega

theorem validate_of_inRange {c : Config} {a : Addr} {w : Width} (h : c.InRange a w.bytes) :
    validate c a w.bits = .ok ⟨c.index a, w.bytes⟩ := by
  rw [validate_bits, if_pos h]

theorem validate_of_not_inRange {c : Config} {a : Addr} {w : Width} (h : ¬ c.InRange a w.bytes) :
    validate c a w.bits = .error .outOfRange := by
  rw [validate_bits, if_neg h]

/-! ### The two outcomes of an operation of a valid width -/

theorem exec_loadOf_of_inRange {s : State} {w : Width} {a : Addr} (d : Word) (h : s.config.InRange a w.bytes) :
    exec (loadOf w a d) s = .next (s.respond (.okValue (s.mem.gather (s.config.index a) w.bytes))) := by
  rw [exec_loadOf, operate_load, if_pos h]

theorem exec_loadOf_of_not_inRange {s : State} {w : Width} {a : Addr} (d : Word)
    (h : ¬ s.config.InRange a w.bytes) : exec (loadOf w a d) s = .next (s.raise .outOfRange) := by
  rw [exec_loadOf, operate_load, if_neg h]

theorem exec_storeOf_of_inRange {s : State} {w : Width} {a : Addr} (v : Word) (h : s.config.InRange a w.bytes) :
    exec (storeOf w a v) s =
      .next ((s.setMem (s.mem.scatter (s.config.index a) v w.bytes)).respond .ok) := by
  rw [exec_storeOf, operate_store, if_pos h]

theorem exec_storeOf_of_not_inRange {s : State} {w : Width} {a : Addr} (v : Word)
    (h : ¬ s.config.InRange a w.bytes) : exec (storeOf w a v) s = .next (s.raise .outOfRange) := by
  rw [exec_storeOf, operate_store, if_neg h]

theorem exec_total (i : Instr) (s : State) : ∃ t, exec i s = .next t := by
  rcases instr_cases i with ⟨w, a, d, rfl⟩ | ⟨w, a, v, rfl⟩
  all_goals by_cases hr : s.config.InRange a w.bytes
  · exact ⟨_, exec_loadOf_of_inRange d hr⟩
  · exact ⟨_, exec_loadOf_of_not_inRange d hr⟩
  · exact ⟨_, exec_storeOf_of_inRange v hr⟩
  · exact ⟨_, exec_storeOf_of_not_inRange v hr⟩

theorem step_of_no_request {s : State} (h : s.requests = []) : step s = .next s := by
  unfold step State.take
  rw [h]
  rfl

theorem step_total (s : State) : ∃ t, step s = .next t := by
  cases h : s.requests with
  | nil => exact ⟨s, step_of_no_request h⟩
  | cons w rest =>
    rcases step_answers h with ⟨-, he⟩ | ⟨x, -, ⟨-, he⟩ | ⟨-, -, he⟩ | ⟨-, -, he⟩⟩ <;> exact ⟨_, he⟩

/-- A span that starts outside the window is refused as out of range or for its width: it cannot be in range (R29). -/
theorem step_of_not_inWindow {s : State} {w : ReqWord} {rest : List ReqWord} (h : s.requests = w :: rest)
    (hw : ¬ s.config.InWindow (addrField w)) : ∃ e, step s = .next ((s.taken rest).raise e) := by
  rcases step_answers h with ⟨-, he⟩ | ⟨x, -, ⟨-, he⟩ | ⟨hr, -⟩ | ⟨hr, -⟩⟩
  · exact ⟨_, he⟩
  · exact ⟨_, he⟩
  · exact absurd (hr.inWindow x.bytes_pos) hw
  · exact absurd (hr.inWindow x.bytes_pos) hw

/-! ### The obligations -/

/-- Settles O6: an operation has two outcomes, both a next state; a step answers with an operation, an invalid width or
nothing. -/
theorem nothingStopsTheMachine : Obligations.NothingStopsTheMachine :=
  ⟨exec_total, step_total⟩

/-- Settles O18: below the base the decoder's comparison comes out true, and the bounds check fails at its first
conjunct. -/
theorem belowBaseIsAnExplicitError : Obligations.BelowBaseIsAnExplicitError := by
  intro c a h
  refine ⟨offsetOf_eq_none h, ?_, fun w => validate_of_not_inRange fun hr => hr.1.not_gt h⟩
  have := c.baseAddress.isLt
  rw [BitVec.toNat_sub, Nat.mod_eq_of_lt (by omega)]
  omega

/-- Settles O19: the 64-bit subtraction does not borrow, and the difference and the base sum to an address. -/
theorem offsetIsTheDifference : Obligations.OffsetIsTheDifference := by
  intro c a h
  have := index_add_base_lt (c := c) h
  exact ⟨offsetOf_eq_index h, toNat_sub_base h, Nat.lt_sub_of_add_lt this⟩

/-- Settles O20: cell `i` and the address `i` above the base name each other. -/
theorem windowNamesCellsOneToOne : Obligations.WindowNamesCellsOneToOne := by
  intro c hc
  refine ⟨fun i hi => ?_, fun a b i ha hb => ?_, fun a i ha => ?_⟩
  · have hr : c.InRange (c.addrOf i) 1 := Config.inRange_addrOf hc Nat.one_pos hi
    exact ⟨hr.inWindow Nat.one_pos, by rw [offsetOf_eq_index hr.1, Config.index_addrOf hc hi]⟩
  · exact BitVec.eq_of_toNat_eq ((toNat_of_offsetOf ha).trans (toNat_of_offsetOf hb).symm)
  · have := toNat_of_offsetOf ha
    rw [Config.InWindow]
    omega

/-- Settles O21: the validator is the bounds check, and at each address the rule lists the check comes out as it says. -/
theorem boundsCheckIsOnTheWholeSpan : Obligations.BoundsCheckIsOnTheWholeSpan := by
  intro c w
  have hpos := w.bytes_pos
  refine ⟨fun a => validate_of_inRange, fun a => validate_of_not_inRange, fun a hcap ha => ?_,
    fun a ha => validate_of_not_inRange ?_, fun a ha => validate_of_not_inRange ?_⟩
  · have hi : c.index a = c.capacity - w.bytes := by rw [Config.index]; omega
    rw [validate_of_inRange ⟨by omega, by omega⟩, hi]
  · rintro ⟨hbase, hend⟩
    rw [Config.index] at hend
    omega
  · rintro ⟨hbase, hend⟩
    rw [Config.index] at hend
    omega

/-- Settles O23: a span in range starts in the window, so outside it the check on the range fails for every width that
reaches it. -/
theorem outsideTheWindowEveryAccessIsRejected : Obligations.OutsideTheWindowEveryAccessIsRejected := by
  refine ⟨fun s w rest h hw => step_of_not_inWindow h hw, fun s w a v ha => ?_⟩
  have hr : ¬ s.config.InRange a w.bytes := fun hr => ha (hr.inWindow w.bytes_pos)
  exact ⟨exec_loadOf_of_not_inRange v hr, exec_storeOf_of_not_inRange v hr⟩

/-- Settles O24: the check asks for the span's end only, so any cell may start one; its address has it as offset. -/
theorem anyOffsetMayStartAnAccess : Obligations.AnyOffsetMayStartAnAccess := by
  intro s w i v hc hi
  have hpos := w.bytes_pos
  have hr := Config.inRange_addrOf hc hpos hi
  rw [exec_loadOf_of_inRange v hr, exec_storeOf_of_inRange v hr, Config.index_addrOf hc (by omega)]
  exact ⟨rfl, rfl⟩

end Machine

end Sys2Proof
end

section
/-! PROOFS. The cells over a stream of requests (spec 20_memory.md R48): a step writes into each cell what the plain
function of Safety.lean says, so a cell holds the byte of the latest successful store that covers it. -/

namespace Sys2Proof.Machine

/-! ### The plain functions: which request writes a cell, and what -/

/-- The verdict passes only spans in range of the four widths. -/
theorem Spec.verdict_eq_none {c : Config} {a : Addr} {width : Nat} (h : Spec.verdict c a width = none) :
    width ∈ [8, 16, 32, 64] ∧ c.InRange a (width / 8) := by
  unfold Spec.verdict at h
  split at h
  · cases h
  split at h
  · cases h
  split at h
  · cases h
  next hw hbase hend => exact ⟨not_not.1 hw, Nat.le_of_not_lt hbase, Nat.le_of_not_lt hend⟩

/-- A request that writes a cell is a store whose width is valid and whose span is in range. -/
theorem Spec.store_of_writes {c : Config} {i : Nat} {r : Request} (h : Spec.writes c i r = true) :
    r.op = .store ∧ r.width.toNat ∈ [8, 16, 32, 64] ∧ c.InRange r.addr (r.width.toNat / 8) := by
  simp only [Spec.writes, Bool.and_eq_true, decide_eq_true_iff] at h
  obtain ⟨⟨⟨hop, hv⟩, -⟩, -⟩ := h
  exact ⟨hop, Spec.verdict_eq_none hv⟩

/-- The byte a store puts into a cell, as the packer cuts it out of the value (R38). -/
theorem Spec.byteFor_unpack (c : Config) (i : Nat) (w : ReqWord) :
    Spec.byteFor c i (Request.unpack w) = byteOf (wdataField w) (i - c.index (addrField w)) := by
  rw [Spec.byteFor, byteOf, BitVec.extractLsb', Nat.shiftRight_eq_div_pow]
  rfl

/-- With one more request at the end, the latest store covering a cell is that request if it covers the cell. -/
theorem Spec.latest_concat (c : Config) (before : Byte) (i : Nat) (rs : List Request) (r : Request) :
    Spec.latest c before i (rs ++ [r]) = if Spec.writes c i r then Spec.byteFor c i r
      else Spec.latest c before i rs := by
  unfold Spec.latest
  rw [List.reverse_concat, List.find?_cons]
  cases Spec.writes c i r <;> rfl

/-! ### One step -/

/-- A request that writes a cell is, of the four answers to a request, the store in range, and the cell is of its span. -/
theorem step_read_of_writes {s t : State} {w : ReqWord} {rest : List ReqWord} {i : Nat} (h : s.requests = w :: rest)
    (hs : step s = .next t) (hi : Spec.writes s.config i (Request.unpack w) = true) :
    t.mem.read i = Spec.byteFor s.config i (Request.unpack w) := by
  obtain ⟨hop, hvalid, hrange⟩ := Spec.store_of_writes hi
  rcases step_answers h with ⟨hw, -⟩ | ⟨x, hx, ⟨hr, -⟩ | ⟨-, ho, -⟩ | ⟨hr, ho, he⟩⟩
  · exact absurd hvalid hw
  · have hbytes : (Request.unpack w).width.toNat / 8 = x.bytes := by rw [← x.bits_div_eight, ← hx]; rfl
    rw [hbytes] at hrange
    exact absurd hrange hr
  · exact absurd (ho.symm.trans hop) (by decide)
  · obtain rfl := Host.Outcome.next.inj (hs.symm.trans he)
    have hspan := (Spec.writes_of_store hx ho hr i).1 hi
    rw [State.respond_mem, State.setMem_mem, Memory.read_scatter, if_pos hspan, Spec.byteFor_unpack]

/-- Every cell after a step is what the plain function of R76 makes of it. -/
theorem step_read {s t : State} {w : ReqWord} {rest : List ReqWord} (h : s.requests = w :: rest)
    (hs : step s = .next t) (i : Nat) :
    t.mem.read i = Spec.cells s.config s.mem.read (Request.unpack w) i := by
  unfold Spec.cells
  split
  · next hi => exact step_read_of_writes h hs hi
  · next hi => exact step_keeps_untouched_cell h hs (Bool.eq_false_iff.2 hi)

/-- The requests taken so far are a history beside the state; a step adds the request it takes to it. -/
theorem step_keeps_latest {s t : State} {before : Nat → Byte} {taken : List ReqWord} {w : ReqWord}
    {rest : List ReqWord}
    (hlatest : ∀ i, s.mem.read i = Spec.latest s.config (before i) i (taken.map Request.unpack))
    (h : s.requests = w :: rest) (hs : step s = .next t) (i : Nat) :
    t.mem.read i = Spec.latest t.config (before i) i ((taken ++ [w]).map Request.unpack) := by
  rw [step_keeps_config hs, List.map_append, List.map_singleton, Spec.latest_concat, ← hlatest i]
  exact step_read h hs i

/-! ### A run over the whole stream -/

theorem run_keeps_latest {ws : List ReqWord} {s : State} {before : Nat → Byte} {taken : List ReqWord}
    (hlatest : ∀ i, s.mem.read i = Spec.latest s.config (before i) i (taken.map Request.unpack))
    (h : s.requests = ws) :
    ∃ t : State, core.run ws.length s = .next t ∧ t.config = s.config ∧ t.requests = [] ∧
      ∀ i, t.mem.read i = Spec.latest t.config (before i) i ((taken ++ ws).map Request.unpack) := by
  induction ws generalizing s taken with
  | nil => exact ⟨s, rfl, rfl, h, by rwa [List.append_nil]⟩
  | cons w rest ih =>
    obtain ⟨u, hu⟩ := step_total s
    obtain ⟨t, hrun, hconfig, hreq, hread⟩ := ih (step_keeps_latest hlatest h hu) (step_takes_request h hu)
    refine ⟨t, (run_succ _ hu).trans hrun, hconfig.trans (step_keeps_config hu), hreq, ?_⟩
    rwa [List.append_assoc] at hread

/-! ### The obligations -/

/-- Settles O54: the step writes the cells its request covers and no other, and its request is now the latest. -/
theorem nextStepKeepsTheLatestStores : Obligations.NextStepKeepsTheLatestStores :=
  fun _ _ _ _ _ _ hlatest h hs =>
    ⟨step_keeps_config hs, step_takes_request h hs, step_keeps_latest hlatest h hs⟩

/-- Settles O52: from the empty history, which every state meets, the run adds the stream to it request by request. -/
theorem cellsHoldTheLatestStore : Obligations.CellsHoldTheLatestStore := by
  intro s
  obtain ⟨t, hrun, hconfig, hreq, hread⟩ :=
    run_keeps_latest (before := s.mem.read) (taken := []) (fun _ => rfl) (rfl : s.requests = s.requests)
  rw [hconfig] at hread
  exact ⟨t, hrun, hconfig, hreq, hread⟩

end Sys2Proof.Machine
end

section
/-! PROOFS. What the cells hold and what an access sees of them (spec 20_memory.md R39 to R42 and the laws of R49): the
unpacker assembles the cells in little-endian order, a store leaves every cell outside its span as it was (R34, R82), and
loads and stores of all widths see one another's bytes. -/

namespace Sys2Proof

theorem Width.bits_eq (w : Width) : w.bits = 8 * w.bytes := by cases w <;> rfl

namespace Machine

/-! ### The unpacker -/

/-- The bytes read fill the low bits of the word only (R42). -/
theorem Memory.toNat_gather_lt (m : Memory) (off : Nat) {n : Nat} (hn : n ≤ 8) :
    (m.gather off n).toNat < 2 ^ (8 * n) := by
  refine Nat.lt_pow_two_of_testBit _ fun b hb => ?_
  rw [BitVec.testBit_toNat, Memory.getLsbD_gather m off n b hn, decide_eq_false (by omega), Bool.false_and]

/-- One more byte goes above the bytes read so far, into bits of its own: the OR of R39 is a sum. -/
theorem Memory.toNat_gather_succ (m : Memory) (off : Nat) {n : Nat} (hn : n < 8) :
    (m.gather off (n + 1)).toNat = (m.gather off n).toNat + (m.read (off + n)).toNat * 2 ^ (8 * n) := by
  have hbyte : (m.read (off + n)).toNat < 2 ^ 64 := (m.read (off + n)).isLt.trans (by decide)
  have hplace : (m.read (off + n)).toNat * 2 ^ (8 * n) < 2 ^ 64 :=
    calc (m.read (off + n)).toNat * 2 ^ (8 * n)
      _ < 2 ^ 8 * 2 ^ (8 * n) := Nat.mul_lt_mul_of_pos_right (m.read (off + n)).isLt (by positivity)
      _ = 2 ^ (8 + 8 * n) := (pow_add 2 8 (8 * n)).symm
      _ ≤ 2 ^ 64 := Nat.pow_le_pow_right (by decide) (by omega)
  rw [Memory.gather, BitVec.toNat_or, BitVec.toNat_shiftLeft, BitVec.toNat_setWidth, Nat.mod_eq_of_lt hbyte,
    Nat.shiftLeft_eq, Nat.mod_eq_of_lt hplace, ← Nat.shiftLeft_eq, Nat.or_comm,
    ← Nat.shiftLeft_add_eq_or_of_lt (Memory.toNat_gather_lt m off hn.le), Nat.add_comm]

theorem Memory.toNat_gather (m : Memory) (off : Nat) {n : Nat} (hn : n ≤ 8) :
    (m.gather off n).toNat = ∑ k ∈ Finset.range n, (m.read (off + k)).toNat * 2 ^ (8 * k) := by
  induction n with
  | zero => rfl
  | succ n ih => rw [Memory.toNat_gather_succ m off hn, ih (by omega), Finset.sum_range_succ]

/-- Two bit vectors side by side are the upper one at its place plus the lower one. -/
theorem toNat_append_eq_add {m n : Nat} (x : BitVec m) (y : BitVec n) :
    (x ++ y).toNat = x.toNat * 2 ^ n + y.toNat := by
  rw [BitVec.toNat_append, ← Nat.shiftLeft_add_eq_or_of_lt y.isLt, Nat.shiftLeft_eq]

theorem Memory.gather_one (m : Memory) (off : Nat) : m.gather off 1 = (m.read off).setWidth 64 := by
  simp [Memory.gather]

theorem Memory.gather_two (m : Memory) (off : Nat) :
    m.gather off 2 = (m.read (off + 1) ++ m.read off).setWidth 64 := by
  apply BitVec.eq_of_toNat_eq
  rw [Memory.toNat_gather m off (by decide)]
  simp only [BitVec.toNat_setWidth, toNat_append_eq_add, Finset.sum_range_succ, Finset.sum_range_zero, Nat.add_zero]
  omega

theorem Memory.gather_four (m : Memory) (off : Nat) :
    m.gather off 4 = (m.read (off + 3) ++ m.read (off + 2) ++ m.read (off + 1) ++ m.read off).setWidth 64 := by
  apply BitVec.eq_of_toNat_eq
  rw [Memory.toNat_gather m off (by decide)]
  simp only [BitVec.toNat_setWidth, toNat_append_eq_add, Finset.sum_range_succ, Finset.sum_range_zero, Nat.add_zero]
  omega

theorem Memory.gather_eight (m : Memory) (off : Nat) :
    m.gather off 8 = m.read (off + 7) ++ m.read (off + 6) ++ m.read (off + 5) ++ m.read (off + 4) ++
      m.read (off + 3) ++ m.read (off + 2) ++ m.read (off + 1) ++ m.read off := by
  apply BitVec.eq_of_toNat_eq
  rw [Memory.toNat_gather m off (by decide)]
  simp only [toNat_append_eq_add, Finset.sum_range_succ, Finset.sum_range_zero, Nat.add_zero]
  omega

/-- What a load returns of a value stored at its span: the value cut to the bytes stored. -/
theorem Memory.gather_scatter (m : Memory) (off : Nat) (v : Word) {n : Nat} (hn : n ≤ 8) :
    (m.scatter off v n).gather off n = BitVec.ofNat 64 (v.toNat % 2 ^ (8 * n)) := by
  apply BitVec.eq_of_getLsbD_eq
  intro b hb
  rw [Memory.getLsbD_gather _ off n b hn, BitVec.getLsbD_ofNat, Nat.testBit_mod_two_pow, decide_eq_true hb,
    Bool.true_and, BitVec.testBit_toNat]
  by_cases hbn : b < 8 * n
  · rw [Memory.read_scatter, if_pos (by omega), Nat.add_sub_cancel_left, byteOf, BitVec.getLsbD_extractLsb',
      decide_eq_true (Nat.mod_lt b (by decide)), Nat.div_add_mod, Bool.true_and]
  · rw [decide_eq_false hbn, Bool.false_and, Bool.false_and]

/-! ### The cells after a store -/

theorem Memory.read_scatter_inside (m : Memory) (off : Nat) (v : Word) {n k : Nat} (hk : k < n) :
    (m.scatter off v n).read (off + k) = byteOf v k := by
  rw [Memory.read_scatter, if_pos (by omega), Nat.add_sub_cancel_left]

theorem Memory.read_scatter_outside (m : Memory) (v : Word) {off n i : Nat} (hi : i < off ∨ off + n ≤ i) :
    (m.scatter off v n).read i = m.read i := by
  rw [Memory.read_scatter, if_neg (by omega)]

/-- Canonical arrays are compared cell by cell: no cell of one span is a cell of the other. -/
theorem Memory.scatter_comm {m : Memory} {off off' n n' : Nat} (v v' : Word) (hm : m.wf)
    (h : off + n ≤ off' ∨ off' + n' ≤ off) :
    (m.scatter off v n).scatter off' v' n' = (m.scatter off' v' n').scatter off v n := by
  refine Memory.eq_of_read_eq (Memory.scatter_keeps_wf _ _ _ (Memory.scatter_keeps_wf _ _ _ hm))
    (Memory.scatter_keeps_wf _ _ _ (Memory.scatter_keeps_wf _ _ _ hm)) fun i => ?_
  simp only [Memory.read_scatter]
  by_cases hi : off ≤ i ∧ i < off + n
  · rw [if_pos hi, if_pos hi, if_neg (by omega)]
  · rw [if_neg hi, if_neg hi]

theorem Memory.scatter_scatter_same {m : Memory} (off n : Nat) (v : Word) (hm : m.wf) :
    (m.scatter off v n).scatter off v n = m.scatter off v n := by
  refine Memory.eq_of_read_eq (Memory.scatter_keeps_wf _ _ _ (Memory.scatter_keeps_wf _ _ _ hm))
    (Memory.scatter_keeps_wf _ _ _ hm) fun i => ?_
  rw [Memory.read_scatter (m.scatter off v n)]
  split
  · next hi => rw [Memory.read_scatter, if_pos hi]
  · rfl

/-! ### Operations in range, by what the array gives -/

theorem exec_loadOf_of_gather {s : State} {w : Width} {a : Addr} (d : Word) {x : Word}
    (hr : s.config.InRange a w.bytes) (hx : s.mem.gather (s.config.index a) w.bytes = x) :
    exec (loadOf w a d) s = .next (s.respond (.okValue x)) := by
  rw [exec_loadOf_of_inRange d hr, hx]

theorem exec_storeOf_of_scatter {s : State} {w : Width} {a : Addr} {v : Word} {m : Memory}
    (hr : s.config.InRange a w.bytes) (hm : s.mem.scatter (s.config.index a) v w.bytes = m) :
    exec (storeOf w a v) s = .next ((s.setMem m).respond .ok) := by
  rw [exec_storeOf_of_inRange v hr, hm]

theorem exec_loadOf_addrOf {s : State} {w : Width} {i : Nat} (d : Word) {x : Word} (hc : s.config.wf = true)
    (hi : i + w.bytes ≤ s.config.capacity) (hx : s.mem.gather i w.bytes = x) :
    exec (loadOf w (s.config.addrOf i) d) s = .next (s.respond (.okValue x)) :=
  (anyOffsetMayStartAnAccess s w i d hc hi).1.trans (by rw [hx]; rfl)

/-- A store answers `Ok` only in range, and then the array is the packer's. -/
theorem exec_storeOf_ok {s t : State} {w : Width} {a : Addr} {v : Word} (h : exec (storeOf w a v) s = .next t)
    (hok : t.response = some .ok) :
    s.config.InRange a w.bytes ∧ t = (s.setMem (s.mem.scatter (s.config.index a) v w.bytes)).respond .ok := by
  by_cases hr : s.config.InRange a w.bytes
  · exact ⟨hr, Host.Outcome.next.inj (h.symm.trans (exec_storeOf_of_inRange v hr))⟩
  · obtain rfl := Host.Outcome.next.inj (h.symm.trans (exec_storeOf_of_not_inRange v hr))
    cases hok

/-! ### The obligations -/

/-- Settles O25: the OR of the shifted bytes is their sum, and so is their concatenation. -/
theorem unpackerAssemblesLittleEndian : Obligations.UnpackerAssemblesLittleEndian := fun m off =>
  ⟨fun _ hn => m.toNat_gather off hn, m.gather_one off, m.gather_two off, m.gather_four off, m.gather_eight off⟩

/-- Settles O27: after the store the four cells hold its four bytes, and each load assembles the cells of its span. -/
theorem mixedWidthsSeeTheCells : Obligations.MixedWidthsSeeTheCells := by
  intro s t f d hc hf h
  have hroom : ∀ k, k ≤ 8 → f + k ≤ s.config.capacity := fun k hk => by omega
  have hstore := (anyOffsetMayStartAnAccess s .w32 f 0xAABBCCDD#64 hc (hroom 4 (by decide))).2
  have ht := Host.Outcome.next.inj (h.symm.trans hstore)
  have hconfig : t.config = s.config := by rw [ht]
  have hmem : t.mem = s.mem.scatter f 0xAABBCCDD#64 4 := by rw [ht]; rfl
  have hin : ∀ k, k < 4 → t.mem.read (f + k) = byteOf 0xAABBCCDD#64 k := fun k hk => by
    rw [hmem, Memory.read_scatter_inside _ _ _ hk]
  have hout : ∀ k, 4 ≤ k → t.mem.read (f + k) = s.mem.read (f + k) := fun k hk => by
    rw [hmem, Memory.read_scatter_outside _ _ (by omega)]
  have h0 : t.mem.read f = 0xDD#8 := hin 0 (by decide)
  have h1 : t.mem.read (f + 1) = 0xCC#8 := hin 1 (by decide)
  have h2 : t.mem.read (f + 2) = 0xBB#8 := hin 2 (by decide)
  have h3 : t.mem.read (f + 3) = 0xAA#8 := hin 3 (by decide)
  rw [← hconfig] at hc hroom ⊢
  refine ⟨exec_loadOf_addrOf (w := .w8) d hc (hroom 1 (by decide)) ?_,
    exec_loadOf_addrOf (w := .w8) d hc (hroom 4 (by decide)) ?_,
    exec_loadOf_addrOf (w := .w16) d hc (hroom 3 (by decide)) ?_,
    exec_loadOf_addrOf (w := .w64) d hc (hroom 8 (by decide)) ?_⟩
  · exact (t.mem.gather_one f).trans (by rw [h0]; rfl)
  · exact (t.mem.gather_one (f + 3)).trans (by rw [h3]; rfl)
  · exact (t.mem.gather_two (f + 1)).trans (by rw [Nat.add_assoc, h2, h1]; rfl)
  · exact (t.mem.gather_eight f).trans (by
      rw [h0, h1, h2, h3, hout 4 (by decide), hout 5 (by decide), hout 6 (by decide), hout 7 (by decide)])

/-- Settles O37: a store in range writes its span at the offset the decoder gives, and one out of range writes nothing. -/
theorem storeFrame : Obligations.StoreFrame := by
  intro s t w a v h
  by_cases hr : s.config.InRange a w.bytes
  · obtain rfl := Host.Outcome.next.inj (h.symm.trans (exec_storeOf_of_inRange v hr))
    refine ⟨rfl, rfl, fun f hf i hi => ?_, absurd hr⟩
    rw [offsetOf_eq_index hr.1, Option.some_inj] at hf
    rw [← hf] at hi
    exact s.mem.read_scatter_outside v hi
  · obtain rfl := Host.Outcome.next.inj (h.symm.trans (exec_storeOf_of_not_inRange v hr))
    exact ⟨rfl, rfl, fun _ _ _ _ => rfl, fun _ => rfl⟩

/-- Settles O41: the store that succeeded has the load's span in range and its bytes in the cells. -/
theorem storeThenLoadReturnsTheValue : Obligations.StoreThenLoadReturnsTheValue := by
  intro s t w a v d h hok
  obtain ⟨hr, rfl⟩ := exec_storeOf_ok h hok
  refine exec_loadOf_of_gather d hr ?_
  rw [w.bits_eq]
  exact Memory.gather_scatter _ _ v w.bytes_le_eight

/-- Settles O42: the byte load's cell is the one at that place of the span. -/
theorem byteViewOfAStore : Obligations.ByteViewOfAStore := by
  intro s t w a v d k hc hk h hok
  obtain ⟨hr, rfl⟩ := exec_storeOf_ok h hok
  obtain ⟨hidx, hbyte⟩ := Config.index_add_of_inRange hc hr hk
  refine exec_loadOf_of_gather (w := .w8) d hbyte ((Memory.gather_one _ _).trans ?_)
  rw [State.respond_config, State.setMem_config, hidx]
  exact congrArg (BitVec.setWidth 64) (Memory.read_scatter_inside _ _ v hk)

/-- Settles O43: both run the one bounds check on the one span. -/
theorem loadAndStoreAgreeOnTheVerdict : Obligations.LoadAndStoreAgreeOnTheVerdict := by
  intro s t u w a d v ht hu
  by_cases hr : s.config.InRange a w.bytes
  · obtain rfl := Host.Outcome.next.inj (ht.symm.trans (exec_loadOf_of_inRange d hr))
    obtain rfl := Host.Outcome.next.inj (hu.symm.trans (exec_storeOf_of_inRange v hr))
    exact ⟨⟨fun _ => hr, fun _ => ⟨_, rfl⟩⟩, ⟨fun _ => hr, fun _ => rfl⟩, fun e => ⟨nofun, nofun⟩⟩
  · obtain rfl := Host.Outcome.next.inj (ht.symm.trans (exec_loadOf_of_not_inRange d hr))
    obtain rfl := Host.Outcome.next.inj (hu.symm.trans (exec_storeOf_of_not_inRange v hr))
    exact ⟨⟨nofun, fun h => absurd h hr⟩, ⟨nofun, fun h => absurd h hr⟩, fun e => Iff.rfl⟩

/-- Settles O44: the second store writes its span over what the first left, and nothing else. -/
theorem lastStoreWins : Obligations.LastStoreWins := by
  intro s t u w x a b v y ht htok hu huok
  obtain ⟨-, rfl⟩ := exec_storeOf_ok ht htok
  obtain ⟨-, rfl⟩ := exec_storeOf_ok hu huok
  refine ⟨fun k hk => Memory.read_scatter_inside _ _ y hk, fun k hk hout => ?_⟩
  exact (Memory.read_scatter_outside _ y hout).trans (Memory.read_scatter_inside _ _ v hk)

/-- Settles O45: the verdicts do not depend on the array, and the two spans are written in either order. -/
theorem disjointStoresCommute : Obligations.DisjointStoresCommute := by
  intro s t u t' u' w x a b v y hm hdisj ht hu ht' hu' htok huok
  obtain ⟨hra, rfl⟩ := exec_storeOf_ok ht htok
  obtain ⟨hrb, rfl⟩ := exec_storeOf_ok hu huok
  obtain rfl := Host.Outcome.next.inj (ht'.symm.trans (exec_storeOf_of_inRange y hrb))
  obtain rfl := Host.Outcome.next.inj (hu'.symm.trans (exec_storeOf_of_inRange v hra))
  exact ⟨Memory.scatter_comm v y hm hdisj, rfl, rfl⟩

/-- Settles O46: the second store writes the bytes the cells already hold. -/
theorem repeatedStoreChangesNothing : Obligations.RepeatedStoreChangesNothing := by
  intro s t w a v hm h hok
  obtain ⟨hr, rfl⟩ := exec_storeOf_ok h hok
  exact exec_storeOf_of_scatter hr (Memory.scatter_scatter_same _ _ v hm)

end Machine

end Sys2Proof
end

section
/-! PROOFS. The encodings (spec 30_encoding.md R54, R55, R58, R59, R62): packing and unpacking a request word are
inverse, so are encoding and decoding an instruction, and the decoder's comparison of the header is the opcode table's
match and mask test. -/

namespace Sys2Proof

/-! ### Packing and unpacking a request word -/

theorem opField_pack (r : Request) : opField r.pack = r.op := by
  have hbit : (r.op.code ++ r.width).getLsbD 8 = r.op.code.getLsbD 0 :=
    BitVec.getLsbD_append.trans (if_neg (Nat.lt_irrefl 8))
  rw [opField_eq, cmdField_pack, hbit]
  cases r.op <;> rfl

theorem widthField_pack (r : Request) : widthField r.pack = r.width := by
  rw [widthField_eq, cmdField_pack]
  exact BitVec.extractLsb'_append_eq_right

theorem Request.unpack_pack (r : Request) : Request.unpack r.pack = r := by
  rw [Request.unpack, opField_pack, widthField_pack, addrField_pack, wdataField_pack]

/-- `CMD = {op, width}` (R55). -/
theorem code_opField_append_widthField (w : ReqWord) : (opField w).code ++ widthField w = cmdField w := by
  rw [opField_eq, widthField_eq]
  exact cmd_of_fields (cmdField w)

/-- The header and the two operand fields are the whole word, so unpacking loses no bit of it. -/
theorem Request.pack_unpack (w : ReqWord) : (Request.unpack w).pack = w := by
  have hcmd : (Request.unpack w).pack = cmdField w ++ addrField w ++ wdataField w := by
    rw [← code_opField_append_widthField]; rfl
  have hhigh : cmdField w ++ addrField w = w.extractLsb' 64 73 :=
    BitVec.extractLsb'_append_extractLsb'_eq_extractLsb' rfl
  have hall : w.extractLsb' 64 73 ++ wdataField w = w.extractLsb' 0 137 :=
    BitVec.extractLsb'_append_extractLsb'_eq_extractLsb' rfl
  rw [hcmd, hhigh, hall, BitVec.extractLsb'_eq_self]

/-- Concatenation as a sum: the high part is shifted past the low one. -/
theorem toNat_append_eq_add {m n : Nat} (x : BitVec m) (y : BitVec n) :
    (x ++ y).toNat = x.toNat * 2 ^ n + y.toNat := by
  rw [BitVec.toNat_append, ← Nat.shiftLeft_add_eq_or_of_lt y.isLt, Nat.shiftLeft_eq]

theorem Request.toNat_pack (r : Request) :
    r.pack.toNat =
      r.op.code.toNat * 2 ^ 136 + r.width.toNat * 2 ^ 128 + r.addr.toNat * 2 ^ 64 + r.wdata.toNat := by
  rw [Request.pack, toNat_append_eq_add, toNat_append_eq_add, toNat_append_eq_add]
  omega

/-! ### Encoding and decoding an instruction -/

theorem addrField_encode (i : Instr) : addrField (encode i) = i.request.addr := addrField_pack i.request

theorem wdataField_encode (i : Instr) : wdataField (encode i) = i.request.wdata := wdataField_pack i.request

/-- The header of each constructor is the one its row of the decoder compares with (R58). -/
theorem decode_encode (i : Instr) : decode (encode i) = .ok i := by
  rw [decode, cmdField_encode, addrField_encode, wdataField_encode]
  cases i <;> simp [Instr.request, Op.code]

theorem request_loadOf (x : Width) (a : Addr) (d : Word) :
    (loadOf x a d).request = ⟨.load, BitVec.ofNat 8 x.bits, a, d⟩ := by cases x <;> rfl

theorem request_storeOf (x : Width) (a : Addr) (v : Word) :
    (storeOf x a v).request = ⟨.store, BitVec.ofNat 8 x.bits, a, v⟩ := by cases x <;> rfl

/-- The request that presents what a word decodes to is the one the word carries. -/
theorem request_of_decode {w : ReqWord} {i : Instr} (h : decode w = .ok i) : i.request = Request.unpack w := by
  obtain ⟨x, hx, hi⟩ := Machine.decode_cases h
  have hwidth : widthField w = BitVec.ofNat 8 x.bits := by rw [← hx, BitVec.ofNat_toNat, BitVec.setWidth_eq]
  rcases hi with ⟨ho, rfl⟩ | ⟨ho, rfl⟩
  · rw [request_loadOf, Request.unpack, ho, hwidth]
  · rw [request_storeOf, Request.unpack, ho, hwidth]

theorem encode_of_decode {w : ReqWord} {i : Instr} (h : decode w = .ok i) : encode i = w := by
  rw [encode, request_of_decode h, Request.pack_unpack]

/-! ### The match and mask test of the opcode table -/

/-- The mask of every row keeps the nine bits of the header and clears the rest. -/
theorem and_mask_eq (w : ReqWord) :
    w &&& 0x1FF00000000000000000000000000000000#137 = cmdField w ++ 0#128 := by
  have hw : cmdField w ++ w.extractLsb' 0 128 = w :=
    (BitVec.extractLsb'_append_extractLsb'_eq_extractLsb' rfl).trans BitVec.extractLsb'_eq_self
  have hmask : 0x1FF00000000000000000000000000000000#137 = BitVec.allOnes 9 ++ 0#128 := by decide
  calc w &&& 0x1FF00000000000000000000000000000000#137
      = (cmdField w ++ w.extractLsb' 0 128) &&& (BitVec.allOnes 9 ++ 0#128) := by rw [hw, hmask]
    _ = cmdField w ++ 0#128 := by rw [BitVec.and_append, BitVec.and_allOnes, BitVec.and_zero]

/-- A row whose `match` is the header `c` above 128 zeros matches exactly the words whose header is `c`. -/
theorem cmdField_eq_iff_and_mask_eq (w : ReqWord) (c : Cmd) :
    cmdField w = c ↔ w &&& 0x1FF00000000000000000000000000000000#137 = c ++ 0#128 := by
  rw [and_mask_eq, BitVec.append_left_inj]

namespace Machine

/-! ### The byte count -/

theorem bytesOf_eq_some_iff {width n : Nat} :
    bytesOf width = some n ↔ ∃ x : Width, width = x.bits ∧ n = x.bytes := by
  refine ⟨bytesOf_eq_some, ?_⟩
  rintro ⟨x, rfl, rfl⟩
  exact bytesOf_bits x

/-! ### The obligations -/

/-- Settles O12: the decoder reads back the fields the encoder packs, and a word that decodes is the packing of its own
fields. -/
theorem decodeAndEncodeAgree : Obligations.DecodeAndEncodeAgree :=
  ⟨fun i _ => decode_encode i, fun _ _ => encode_of_decode⟩

/-- Settles O14: row by row, the match and mask test is the decoder's comparison of the header. -/
theorem decoderIsTheOpcodeTable : Obligations.DecoderIsTheOpcodeTable := fun w =>
  have row := cmdField_eq_iff_and_mask_eq w
  if_congr (row 0x008#9) rfl <| if_congr (row 0x010#9) rfl <| if_congr (row 0x020#9) rfl <|
  if_congr (row 0x040#9) rfl <| if_congr (row 0x108#9) rfl <| if_congr (row 0x110#9) rfl <|
  if_congr (row 0x120#9) rfl <| if_congr (row 0x140#9) rfl rfl

/-- Settles O15: the fields are the parts of the word, and the operation and the width, which fix the row, are the parts
of the header. -/
theorem requestWordLayout : Obligations.RequestWordLayout := by
  refine ⟨fun r => ⟨r.toNat_pack, ?_, ?_, r.unpack_pack⟩, Request.pack_unpack, fun w w' hcmd => ?_⟩
  · rw [cmdField_pack]
    exact BitVec.extractLsb'_append_eq_left
  · exact (widthField_eq r.pack).symm.trans (widthField_pack r)
  · have hop : opField w = opField w' := by rw [opField_eq, opField_eq, hcmd]
    have hwidth : widthField w = widthField w' := by rw [widthField_eq, widthField_eq, hcmd]
    refine ⟨by rw [decode_eq_error_iff, decode_eq_error_iff, hwidth], fun i i' h h' => ?_⟩
    rw [request_of_decode h, request_of_decode h']
    exact ⟨hop, hwidth⟩

/-- Settles O7: the step takes the word off the stream and decodes it. -/
theorem stepRunsTheDecodedInstruction : Obligations.StepRunsTheDecodedInstruction := by
  intro s w rest i hs hd _
  rw [step_of_request hs, hd]
  rfl

/-- Settles O17: the four widths are the table's rows, and dividing by 8 drops the low three bits of a width field. -/
theorem byteCountTable : Obligations.ByteCountTable := by
  refine ⟨fun width n => ?_, fun f n h => ?_⟩
  · rw [bytesOf_eq_some_iff]
    constructor
    · rintro ⟨x, rfl, rfl⟩
      cases x <;> decide
    · rintro (⟨rfl, rfl⟩ | ⟨rfl, rfl⟩ | ⟨rfl, rfl⟩ | ⟨rfl, rfl⟩)
      exacts [⟨.w8, rfl, rfl⟩, ⟨.w16, rfl, rfl⟩, ⟨.w32, rfl, rfl⟩, ⟨.w64, rfl, rfl⟩]
  · obtain ⟨x, hf, rfl⟩ := bytesOf_eq_some h
    rw [BitVec.extractLsb'_toNat, hf, x.bits_div_eight]
    cases x <;> decide

/-- Settles O40: what a load can do names its address and width, and not its `wdata`. -/
theorem loadIgnoresWdata : Obligations.LoadIgnoresWdata := by
  intro s w a d d'
  rw [exec_loadOf, exec_loadOf, operate_load, operate_load]

end Machine

end Sys2Proof
end

section
/-! PROOFS. The load and its four forms (spec 40_load.md R69 to R75): what a load in range returns, that every other one
is `OutOfRange`, and that it changes the response only. -/

namespace Sys2Proof

/-- The header of a load is the code of `load` beside its width (R55, R58). -/
theorem cmdField_encode_loadOf (w : Width) (a : Addr) (d : Word) :
    cmdField (encode (loadOf w a d)) = 0#1 ++ BitVec.ofNat 8 w.bits := by
  rw [cmdField_encode, request_loadOf]
  rfl

/-- The range as the error clauses of R71 to R74 say it: below the base, or ending past the array. -/
theorem Config.not_inRange_of_outside {c : Config} {a : Addr} {n : Nat}
    (h : a.toNat < c.baseAddress.toNat ∨ c.index a + n > c.capacity) : ¬ c.InRange a n := by
  rintro ⟨hbase, hend⟩
  exact h.elim hbase.not_gt hend.not_gt

/-- No span is longer than the array (R74). -/
theorem Config.not_inRange_of_capacity_lt {c : Config} {n : Nat} (a : Addr) (h : c.capacity < n) : ¬ c.InRange a n :=
  fun hr => h.not_ge ((Nat.le_add_left n _).trans hr.2)

namespace Machine

theorem exec_loadOf_of_outside {s : State} {w : Width} {a : Addr} (d : Word)
    (h : a.toNat < s.config.baseAddress.toNat ∨ s.config.index a + w.bytes > s.config.capacity) :
    exec (loadOf w a d) s = .next (s.raise .outOfRange) :=
  exec_loadOf_of_not_inRange d (Config.not_inRange_of_outside h)

/-- A load answers with a value only in range, and then the value is the unpacker's. -/
theorem exec_loadOf_okValue {s t : State} {w : Width} {a : Addr} {d v : Word} (h : exec (loadOf w a d) s = .next t)
    (hv : t.response = some (.okValue v)) :
    s.config.InRange a w.bytes ∧ v = s.mem.gather (s.config.index a) w.bytes := by
  by_cases hr : s.config.InRange a w.bytes
  · obtain rfl := Host.Outcome.next.inj (h.symm.trans (exec_loadOf_of_inRange d hr))
    exact ⟨hr, (Response.okValue.inj (Option.some.inj hv)).symm⟩
  · obtain rfl := Host.Outcome.next.inj (h.symm.trans (exec_loadOf_of_not_inRange d hr))
    cases hv

/-! ### The obligations -/

/-- Settles O28: the unpacker of one byte returns the cell, and a span of one cell ends past the array when it starts
there. -/
theorem load8ReturnsTheCell : Obligations.Load8ReturnsTheCell := fun s a d =>
  ⟨cmdField_encode_loadOf .w8 a d, decode_encode _,
    fun hr => exec_loadOf_of_gather (w := .w8) d hr (s.mem.gather_one _),
    fun h => exec_loadOf_of_outside (w := .w8) d (h.imp_right Nat.lt_succ_of_le)⟩

/-- Settles O29: the unpacker of two bytes returns the two cells of the span. -/
theorem load16ReturnsTwoCells : Obligations.Load16ReturnsTwoCells := fun s a d =>
  ⟨cmdField_encode_loadOf .w16 a d, decode_encode _,
    fun hr => exec_loadOf_of_gather (w := .w16) d hr (s.mem.gather_two _),
    exec_loadOf_of_outside (w := .w16) d⟩

/-- Settles O30: the unpacker of four bytes returns the four cells of the span. -/
theorem load32ReturnsFourCells : Obligations.Load32ReturnsFourCells := fun s a d =>
  ⟨cmdField_encode_loadOf .w32 a d, decode_encode _,
    fun hr => exec_loadOf_of_gather (w := .w32) d hr (s.mem.gather_four _),
    exec_loadOf_of_outside (w := .w32) d⟩

/-- Settles O31: the unpacker of eight bytes returns the eight cells of the span, which an array of fewer cells does not
hold. -/
theorem load64ReturnsEightCells : Obligations.Load64ReturnsEightCells := fun s a d =>
  ⟨cmdField_encode_loadOf .w64 a d, decode_encode _,
    fun hr => exec_loadOf_of_gather (w := .w64) d hr (s.mem.gather_eight _),
    exec_loadOf_of_outside (w := .w64) d,
    fun hcap => exec_loadOf_of_not_inRange (w := .w64) d (Config.not_inRange_of_capacity_lt a hcap)⟩

/-- Settles O36: in range or not, the load writes the response only, and its verdict and value do not depend on it. -/
theorem loadChangesNothing : Obligations.LoadChangesNothing := by
  intro s t w a d h
  by_cases hr : s.config.InRange a w.bytes
  · obtain rfl := Host.Outcome.next.inj (h.symm.trans (exec_loadOf_of_inRange d hr))
    exact ⟨rfl, rfl, rfl, fun _ => rfl, exec_loadOf_of_inRange d hr⟩
  · obtain rfl := Host.Outcome.next.inj (h.symm.trans (exec_loadOf_of_not_inRange d hr))
    exact ⟨rfl, rfl, rfl, fun _ => rfl, exec_loadOf_of_not_inRange d hr⟩

/-- Settles O38: the value is what the unpacker assembles from the bytes of the width, with nothing above them. -/
theorem loadZeroExtends : Obligations.LoadZeroExtends := by
  intro s t w a d v h hv
  obtain ⟨-, rfl⟩ := exec_loadOf_okValue h hv
  have hlt : (s.mem.gather (s.config.index a) w.bytes).toNat < 2 ^ w.bits :=
    w.bits_eq ▸ s.mem.toNat_gather_lt _ w.bytes_le_eight
  refine ⟨hlt, ?_⟩
  rintro rfl
  apply BitVec.eq_of_toNat_eq
  rw [BitVec.extractLsb'_toNat, Nat.shiftRight_eq_div_pow]
  exact congrArg (· % 2 ^ 56) (Nat.div_eq_of_lt hlt)

end Machine

end Sys2Proof
end

section
/-! PROOFS. The store and its four forms (spec 41_store.md R76 to R81): a store in range puts the bytes of its value in
the cells of its span and leaves every other cell as it was, every other store is `OutOfRange`, and the bits of the
value above the width are not used. -/

namespace Sys2Proof

/-- The header of a store is the code of `store` beside its width (R55, R58). -/
theorem cmdField_encode_storeOf (w : Width) (a : Addr) (v : Word) :
    cmdField (encode (storeOf w a v)) = 1#1 ++ BitVec.ofNat 8 w.bits := by
  rw [cmdField_encode, request_storeOf]
  rfl

namespace Machine

/-! ### The bytes the packer takes -/

/-- Cutting a value to its low `n` bytes leaves each of those bytes as it was. -/
theorem byteOf_cut (v : Word) {n k : Nat} (hn : n ≤ 8) (hk : k < n) :
    byteOf (BitVec.ofNat 64 (v.toNat % 2 ^ (8 * n))) k = byteOf v k := by
  apply BitVec.eq_of_getLsbD_eq
  intro b hb
  have hkept : 8 * k + b < 8 * n := by omega
  have hword : 8 * k + b < 64 := by omega
  rw [byteOf, byteOf, BitVec.getLsbD_extractLsb', BitVec.getLsbD_extractLsb', BitVec.getLsbD_ofNat,
    Nat.testBit_mod_two_pow, decide_eq_true hkept, decide_eq_true hword, Bool.true_and, Bool.true_and,
    BitVec.testBit_toNat]

/-- The packer's loop depends on the bytes of its span only. -/
theorem Memory.scatter_congr (m : Memory) (off : Nat) {v v' : Word} {n : Nat}
    (h : ∀ k, k < n → byteOf v k = byteOf v' k) : m.scatter off v n = m.scatter off v' n := by
  induction n with
  | zero => rfl
  | succ n ih => rw [Memory.scatter, Memory.scatter, ih fun k hk => h k (by omega), h n (by omega)]

/-! ### The two outcomes of a store, as R78 to R81 say them -/

/-- What a store in range leaves in every cell. -/
theorem exec_storeOf_writes {s : State} {w : Width} {a : Addr} (v : Word) (hr : s.config.InRange a w.bytes) :
    ∃ m : Memory, exec (storeOf w a v) s = .next { s with mem := m, response := some .ok } ∧
      (∀ k, k < w.bytes → m.read (s.config.index a + k) = v.extractLsb' (8 * k) 8) ∧
      ∀ i, i < s.config.index a ∨ s.config.index a + w.bytes ≤ i → m.read i = s.mem.read i :=
  ⟨_, exec_storeOf_of_inRange v hr, fun _ hk => Memory.read_scatter_inside _ _ v hk,
    fun _ hi => Memory.read_scatter_outside _ v hi⟩

theorem exec_storeOf_of_outside {s : State} {w : Width} {a : Addr} (v : Word)
    (h : a.toNat < s.config.baseAddress.toNat ∨ s.config.index a + w.bytes > s.config.capacity) :
    exec (storeOf w a v) s = .next (s.raise .outOfRange) :=
  exec_storeOf_of_not_inRange v (Config.not_inRange_of_outside h)

/-! ### The obligations -/

/-- Settles O32: the span is the one cell, and a span of one cell ends past the array when it starts there. -/
theorem store8WritesTheCell : Obligations.Store8WritesTheCell := by
  intro s a v
  refine ⟨cmdField_encode_storeOf .w8 a v, decode_encode _, fun hr => ?_,
    fun h => exec_storeOf_of_outside (w := .w8) v (h.imp_right Nat.lt_succ_of_le)⟩
  obtain ⟨m, hexec, hin, hout⟩ := exec_storeOf_writes (w := .w8) v hr
  exact ⟨m, hexec, hin 0 (by decide), hout⟩

/-- Settles O33: the two cells of the span hold the value's two low bytes. -/
theorem store16WritesTwoCells : Obligations.Store16WritesTwoCells := by
  intro s a v
  refine ⟨cmdField_encode_storeOf .w16 a v, decode_encode _, fun hr => ?_, exec_storeOf_of_outside (w := .w16) v⟩
  obtain ⟨m, hexec, hin, hout⟩ := exec_storeOf_writes (w := .w16) v hr
  exact ⟨m, hexec, hin 0 (by decide), hin 1 (by decide), hout⟩

/-- Settles O34: the four cells of the span hold the value's four low bytes. -/
theorem store32WritesFourCells : Obligations.Store32WritesFourCells := by
  intro s a v
  refine ⟨cmdField_encode_storeOf .w32 a v, decode_encode _, fun hr => ?_, exec_storeOf_of_outside (w := .w32) v⟩
  obtain ⟨m, hexec, hin, hout⟩ := exec_storeOf_writes (w := .w32) v hr
  exact ⟨m, hexec, hin 0 (by decide), hin 1 (by decide), hin 2 (by decide), hin 3 (by decide), hout⟩

/-- Settles O35: the eight cells of the span hold the value's eight bytes, and an array of fewer cells holds no such
span. -/
theorem store64WritesEightCells : Obligations.Store64WritesEightCells := fun _ a v =>
  ⟨cmdField_encode_storeOf .w64 a v, decode_encode _,
    exec_storeOf_writes (w := .w64) v,
    exec_storeOf_of_outside (w := .w64) v,
    fun hcap => exec_storeOf_of_not_inRange (w := .w64) v (Config.not_inRange_of_capacity_lt a hcap)⟩

/-- Settles O39: the verdict does not depend on the value, and the bytes the packer takes are those the cut keeps. -/
theorem storeUsesTheLowBitsOnly : Obligations.StoreUsesTheLowBitsOnly := by
  intro s w a v
  by_cases hr : s.config.InRange a w.bytes
  · rw [exec_storeOf_of_inRange v hr, exec_storeOf_of_inRange _ hr, w.bits_eq,
      Memory.scatter_congr _ _ fun _ hk => byteOf_cut v w.bytes_le_eight hk]
  · rw [exec_storeOf_of_not_inRange v hr, exec_storeOf_of_not_inRange _ hr]

end Machine

end Sys2Proof
end

section
/-! PROOFS. What the block signals: a request has one response that fits its operation, an error leaves the array alone
(spec 60_exceptions.md R83, R90, R110), and the response word carries the status code and the value (R86, on the lines of
30_encoding.md R56, R57). -/

namespace Sys2Proof

namespace Machine

/-! ### The outcomes of a step by the response they carry -/

/-- The answers to a request: an error that leaves everything else alone, a load's value, or a store's `Ok`. -/
theorem step_outcomes {s : State} {w : ReqWord} {rest : List ReqWord} (h : s.requests = w :: rest) :
    (∃ e, step s = .next ((s.taken rest).raise e)) ∨
    (opField w = .load ∧ ∃ v, step s = .next ((s.taken rest).respond (.okValue v))) ∨
    (opField w = .store ∧ ∃ m, step s = .next (((s.taken rest).setMem m).respond .ok)) := by
  rcases step_answers h with ⟨-, he⟩ | ⟨x, -, ⟨-, he⟩ | ⟨-, ho, he⟩ | ⟨-, ho, he⟩⟩
  · exact .inl ⟨_, he⟩
  · exact .inl ⟨_, he⟩
  · exact .inr (.inl ⟨ho, _, he⟩)
  · exact .inr (.inr ⟨ho, _, he⟩)

/-! ### The lines of the response word -/

@[simp] theorem Response.extractLsb'_status_pack (r : Response) (errRdata : Word) :
    (r.pack errRdata).extractLsb' 64 2 = r.status :=
  BitVec.extractLsb'_append_eq_left

@[simp] theorem Response.extractLsb'_rdata_pack (r : Response) (errRdata : Word) :
    (r.pack errRdata).extractLsb' 0 64 = r.rdata errRdata :=
  BitVec.extractLsb'_append_eq_right

theorem Response.status_ne_three (r : Response) : r.status ≠ 0b11#2 := by
  cases r with
  | okValue v => exact (by decide : 0b00#2 ≠ 0b11#2)
  | ok => decide
  | err e => cases e <;> decide

/-! ### The obligations -/

/-- Settles O5: each of the three answers takes the request alone off the stream and carries a response of its operation. -/
theorem everyRequestGetsOneResponse : Obligations.EveryRequestGetsOneResponse := by
  intro s w rest h
  rcases step_outcomes h with ⟨e, he⟩ | ⟨ho, v, he⟩ | ⟨ho, m, he⟩
  · exact ⟨_, .err e, he, rfl, rfl, .inl ⟨e, rfl⟩⟩
  · exact ⟨_, .okValue v, he, rfl, rfl, .inr (.inl ⟨ho, v, rfl⟩)⟩
  · exact ⟨_, .ok, he, rfl, rfl, .inr (.inr ⟨ho, rfl⟩)⟩

/-- Settles O16: the two lines of the word are the status and the data it is packed from, and no response has status
`0b11`. -/
theorem responseWordLayout : Obligations.ResponseWordLayout := by
  intro errRdata
  simp only [Response.extractLsb'_status_pack, Response.extractLsb'_rdata_pack]
  exact ⟨fun _ => ⟨rfl, rfl⟩, rfl, rfl, rfl, Response.status_ne_three⟩

/-- Settles O47: of the three answers only the error's carries an error, and it writes the response alone. -/
theorem errorChangesNoState : Obligations.ErrorChangesNoState := by
  intro s t w rest e h hs hresp
  rcases step_outcomes h with ⟨e', he⟩ | ⟨-, v, he⟩ | ⟨-, m, he⟩ <;>
    obtain rfl := Host.Outcome.next.inj (hs.symm.trans he)
  · obtain rfl : e' = e := Response.err.inj (Option.some.inj hresp)
    rfl
  · exact nomatch hresp
  · exact nomatch hresp

end Machine

end Sys2Proof
end

section
/-! PROOFS. The invariant of the machine (spec 10_state.md section 1, 00_scope.md R9, R13): creation meets it, and each of
the three things an operation can do keeps it; and what the packer does to the cells (20_memory.md R40). -/

namespace Sys2Proof.Machine

/-! ### The invariant, update by update -/

theorem create_wf {c : Config} (hc : c.wf = true) : (State.create c).WF :=
  ⟨hc, ⟨List.Pairwise.nil, nofun⟩, nofun⟩

/-- The invariant speaks of the configuration and the array only. -/
theorem State.WF.of_config_mem {s t : State} (h : s.WF) (hc : t.config = s.config) (hm : t.mem = s.mem) : t.WF := by
  rw [State.WF, hc, hm]
  exact h

/-- A store in range lists cells of its span only, which ends inside the array. -/
theorem State.WF.setMem_scatter {s : State} {a : Addr} {n : Nat} (v : Word) (h : s.WF) (hr : s.config.InRange a n) :
    (s.setMem (s.mem.scatter (s.config.index a) v n)).WF := by
  obtain ⟨hconfig, hmem, hcells⟩ := h
  refine ⟨hconfig, Memory.scatter_keeps_wf _ v n hmem, fun p hp => ?_⟩
  rcases Memory.mem_scatter hp with hp | ⟨-, hspan⟩
  · exact hcells p hp
  · exact hspan.trans_le hr.2

theorem exec_keeps_wf {i : Instr} {s t : State} (hs : s.WF) (h : exec i s = .next t) : t.WF := by
  rcases exec_cases h with ⟨e, rfl⟩ | ⟨w, a, d, -, -, rfl⟩ | ⟨w, a, v, -, hr, rfl⟩
  · exact hs.of_config_mem (s.raise_config e) (s.raise_mem e)
  · exact hs.of_config_mem (s.respond_config _) (s.respond_mem _)
  · exact (hs.setMem_scatter v hr).of_config_mem (State.respond_config _ _) (State.respond_mem _ _)

theorem step_keeps_wf {s t : State} (hs : s.WF) (h : step s = .next t) : t.WF := by
  rcases step_cases h with ⟨-, rfl⟩ | ⟨w, rest, -, hstep⟩
  · exact hs
  have htaken : (s.taken rest).WF := hs.of_config_mem (s.taken_config rest) (s.taken_mem rest)
  rcases hstep with ⟨i, -, hi⟩ | ⟨-, rfl⟩
  · exact exec_keeps_wf htaken hi
  · exact htaken.of_config_mem (State.raise_config _ _) (State.raise_mem _ _)

/-! ### The byte the packer cuts out -/

theorem setWidth_byteOf (v : Word) (k : Nat) : (byteOf v k).setWidth 64 = (v >>> (8 * k)) &&& 0xFF#64 := by
  apply BitVec.eq_of_toNat_eq
  rw [byteOf, BitVec.toNat_setWidth, BitVec.extractLsb'_toNat, BitVec.toNat_and, BitVec.toNat_ushiftRight,
    show (0xFF#64).toNat = 2 ^ 8 - 1 from rfl, Nat.and_two_pow_sub_one_eq_mod]
  exact Nat.mod_eq_of_lt ((Nat.mod_lt _ (by decide)).trans (by decide))

/-! ### The obligations -/

/-- Settles O3: a step is idle, answers an invalid width or runs an operation; only a store in range touches the array,
and the packer keeps its form and its index set. -/
theorem stepKeepsTheInvariant : Obligations.StepKeepsTheInvariant :=
  fun _ _ hs h => step_keeps_wf hs h

/-- Settles O2: an array that lists no cell is canonical and inside every index set. -/
theorem resetMeetsTheInvariant : Obligations.ResetMeetsTheInvariant :=
  ⟨create_wf (by decide), rfl, rfl, rfl, rfl, fun _ => create_wf⟩

/-- Settles O26: inside the span a cell holds its byte of the value, outside it what it held. -/
theorem packerWritesTheSpanOnly : Obligations.PackerWritesTheSpanOnly := by
  intro m off n v
  refine ⟨fun k hk => ?_, fun i hi => m.read_scatter_outside v hi, Memory.scatter_keeps_wf off v n⟩
  rw [m.read_scatter_inside off v hk, setWidth_byteOf]

end Sys2Proof.Machine
end

section
/-! PROOFS. The step against the plain functions of Safety.lean (spec 30_encoding.md section 3, 40_load.md R69,
41_store.md R76): its response is theirs, so each error has exactly its cause (60_exceptions.md section 1). -/

namespace Sys2Proof

theorem Width.bits_mem (w : Width) : w.bits ∈ [8, 16, 32, 64] := by cases w <;> decide

namespace Machine

/-! ### The plain verdict and the plain response -/

/-- The verdict: the width, then the bounds check on the bytes of the width (R35, R89). -/
theorem Spec.verdict_eq (c : Config) (a : Addr) (width : Nat) :
    Spec.verdict c a width =
      if width ∈ [8, 16, 32, 64] then if c.InRange a (width / 8) then none else some .outOfRange
      else some .invalidWidth := by
  rw [Spec.verdict, ite_not]
  refine if_congr Iff.rfl ?_ rfl
  by_cases hbase : a.toNat < c.baseAddress.toNat
  · rw [if_pos hbase, if_neg fun hr => hr.1.not_gt hbase]
  by_cases hend : c.capacity < c.index a + width / 8
  · rw [if_neg hbase, if_pos hend, if_neg fun hr => hr.2.not_gt hend]
  · rw [if_neg hbase, if_neg hend, if_pos ⟨Nat.le_of_not_lt hbase, Nat.le_of_not_lt hend⟩]

theorem Spec.verdict_eq_invalidWidth_iff {c : Config} {a : Addr} {width : Nat} :
    Spec.verdict c a width = some .invalidWidth ↔ width ∉ [8, 16, 32, 64] := by
  rw [Spec.verdict_eq]
  split_ifs with hw hr
  · exact iff_of_false nofun (not_not.2 hw)
  · exact iff_of_false nofun (not_not.2 hw)
  · exact iff_of_true rfl hw

theorem Spec.verdict_eq_outOfRange_iff {c : Config} {a : Addr} {width : Nat} :
    Spec.verdict c a width = some .outOfRange ↔ width ∈ [8, 16, 32, 64] ∧ ¬ c.InRange a (width / 8) := by
  rw [Spec.verdict_eq]
  split_ifs with hw hr
  · exact iff_of_false nofun fun h => h.2 hr
  · exact iff_of_true rfl ⟨hw, hr⟩
  · exact iff_of_false nofun fun h => hw h.1

theorem Spec.verdict_of_not_inRange {c : Config} {a : Addr} {w : Width} (h : ¬ c.InRange a w.bytes) :
    Spec.verdict c a w.bits = some .outOfRange :=
  Spec.verdict_eq_outOfRange_iff.2 ⟨w.bits_mem, by rwa [w.bits_div_eight]⟩

/-- The plain response is an error exactly when that is the verdict. -/
theorem Spec.response_eq_err_iff {c : Config} {cells : Nat → Byte} {r : Request} {e : AccessError} :
    Spec.response c cells r = .err e ↔ Spec.verdict c r.addr r.width.toNat = some e := by
  unfold Spec.response
  split
  · next e' hv => rw [hv, Response.err.injEq, Option.some_inj]
  · next hv =>
    rw [hv]
    split <;> exact iff_of_false nofun nofun

theorem Spec.response_of_store {c : Config} {cells : Nat → Byte} {r : Request}
    (hv : Spec.verdict c r.addr r.width.toNat = none) (ho : r.op = .store) : Spec.response c cells r = .ok := by
  rw [Spec.response, hv, ho]

/-- The plain value of a load, the sum of R39, is the word the unpacker assembles. -/
theorem Spec.response_of_load {c : Config} {m : Memory} {r : Request} {x : Width}
    (hv : Spec.verdict c r.addr r.width.toNat = none) (ho : r.op = .load) (hx : r.width.toNat = x.bits) :
    Spec.response c m.read r = .okValue (m.gather (c.index r.addr) x.bytes) := by
  rw [Spec.response, hv, ho, hx, x.bits_div_eight]
  dsimp only
  rw [← m.toNat_gather _ x.bytes_le_eight, BitVec.ofNat_toNat, BitVec.setWidth_eq]

/-! ### The response of a step -/

theorem step_response {s t : State} {w : ReqWord} {rest : List ReqWord} (h : s.requests = w :: rest)
    (hs : step s = .next t) : t.response = some (Spec.response s.config s.mem.read (Request.unpack w)) := by
  rcases step_answers h with ⟨hw, he⟩ | ⟨x, hx, ⟨hr, he⟩ | ⟨hr, ho, he⟩ | ⟨hr, ho, he⟩⟩ <;>
    obtain rfl := Host.Outcome.next.inj (hs.symm.trans he)
  · exact congrArg some (Spec.response_eq_err_iff.2 (Spec.verdict_eq_invalidWidth_iff.2 hw)).symm
  · exact congrArg some (Spec.response_eq_err_iff.2 (hx ▸ Spec.verdict_of_not_inRange hr)).symm
  · have hv : Spec.verdict s.config (addrField w) (widthField w).toNat = none := hx ▸ Spec.verdict_of_inRange hr
    exact congrArg some (Spec.response_of_load (r := Request.unpack w) hv ho hx).symm
  · have hv : Spec.verdict s.config (addrField w) (widthField w).toNat = none := hx ▸ Spec.verdict_of_inRange hr
    exact congrArg some (Spec.response_of_store (r := Request.unpack w) hv ho).symm

theorem step_response_eq_err_iff {s t : State} {w : ReqWord} {rest : List ReqWord} {e : AccessError}
    (h : s.requests = w :: rest) (hs : step s = .next t) :
    t.response = some (.err e) ↔ Spec.verdict s.config (addrField w) (widthField w).toNat = some e := by
  rw [step_response h hs, Option.some_inj]
  exact Spec.response_eq_err_iff

/-! ### Invalid widths -/

theorem step_of_invalid_width {s : State} {w : ReqWord} {rest : List ReqWord} (h : s.requests = w :: rest)
    (hw : (widthField w).toNat ∉ [8, 16, 32, 64]) : step s = .next ((s.taken rest).raise .invalidWidth) := by
  rw [step_of_request h, (decode_eq_error_iff w).2 hw]
  rfl

theorem operate_of_invalid_width (op : Op) (a : Addr) {width : Nat} (v : Word) (s : State)
    (h : width ∉ [8, 16, 32, 64]) : operate op a width v s = .next (s.raise .invalidWidth) := by
  rw [operate, validate_invalid s.config a h]
  rfl

/-! ### The obligations -/

/-- Settles O51: the four answers to a request respond as the plain functions do, and the cells after the step are
theirs. -/
theorem stepRefinesLoadAndStore : Obligations.StepRefinesLoadAndStore := by
  intro s w rest h
  obtain ⟨t, ht⟩ := step_total s
  exact ⟨t, ht, step_keeps_config ht, step_takes_request h ht, step_response h ht, step_read h ht⟩

/-- Settles O49: the step answers an error exactly when the plain verdict is that error. -/
theorem eachErrorHasItsCause : Obligations.EachErrorHasItsCause := fun _ _ _ _ h hs =>
  ⟨(step_response_eq_err_iff h hs).trans Spec.verdict_eq_invalidWidth_iff,
    (step_response_eq_err_iff h hs).trans Spec.verdict_eq_outOfRange_iff⟩

/-- Settles O8: no row of the opcode map has such a width, and the answer to a word without a row writes the response
alone. -/
theorem invalidWidthIsAnsweredAndChangesNothing : Obligations.InvalidWidthIsAnsweredAndChangesNothing := by
  refine ⟨fun s w rest h hw => step_of_invalid_width h hw, fun f => ?_⟩
  simp only [ne_eq, ← BitVec.toNat_inj, List.mem_cons, List.not_mem_nil, or_false, not_or]
  exact Iff.rfl

/-- Settles O9: the validator looks at the width first. -/
theorem everyOtherWidthOfAnOperationIsInvalid : Obligations.EveryOtherWidthOfAnOperationIsInvalid :=
  fun op a _ v s h => operate_of_invalid_width op a v s h

end Machine

end Sys2Proof
end

section
/-! PROOFS. The two sides of the port: a placed request word is the next one decoded and run, and with none nothing
happens (spec 30_encoding.md R55, R58, 60_exceptions.md R93); the data lines of a response without a value are left free
(30_encoding.md section 2). -/

namespace Sys2Proof

@[simp] theorem reqWordOfNat_toNat (w : ReqWord) : reqWordOfNat w.toNat = w := by
  rw [reqWordOfNat, BitVec.ofNat_toNat, BitVec.setWidth_eq]

theorem decodeTableWord_encode (nbits : Nat) (i : Instr) : decodeTableWord nbits (encode i).toNat = some i := by
  rw [decodeTableWord, reqWordOfNat_toNat, decode_encode]

namespace Machine

theorem withFetchWord_toNat (s : State) (nbits : Nat) (w : ReqWord) :
    s.withFetchWord nbits w.toNat = s.issueNext w := by
  rw [State.withFetchWord, reqWordOfNat_toNat]

/-- A word placed at the head of the stream is taken off again by the step that runs it. -/
theorem step_issueNext_of_decode {w : ReqWord} {i : Instr} (s : State) (hd : decode w = .ok i) :
    step (s.issueNext w) = exec i s := by
  rw [step_of_request (s.issueNext_requests w), hd]
  rfl

theorem Response.rdata_of_no_value {r : Response} (errRdata : Word) (h : ∀ v, r ≠ .okValue v) :
    r.rdata errRdata = errRdata := by
  cases r with
  | okValue v => exact absurd rfl (h v)
  | ok => rfl
  | err e => rfl

/-! ### The obligations -/

/-- Settles O10: with an empty stream there is no request to take. -/
theorem idleBlockStaysAsItIs : Obligations.IdleBlockStaysAsItIs := fun _ => step_of_no_request

/-- Settles O11: the placed word is the encoding itself, which decodes to the instruction. -/
theorem placedRequestRunsNext : Obligations.PlacedRequestRunsNext := by
  intro s i nbits _
  refine ⟨decodeTableWord_encode nbits i, ?_⟩
  rw [withFetchWord_toNat, step_issueNext_of_decode s (decode_encode i)]

/-- Settles O13: each word is closed, so the decoder evaluates on it. -/
theorem sampleRequestWordsDecode : Obligations.SampleRequestWordsDecode :=
  ⟨rfl, rfl, rfl, rfl, rfl, rfl, rfl, rfl⟩

/-- Settles O53: the lines of such a response are the argument of the word, so `x` stands on them for the argument
`x`. -/
theorem dataLinesWithoutAValueAreFree : Obligations.DataLinesWithoutAValueAreFree := by
  refine ⟨fun errRdata => ⟨?_, fun e => ?_⟩, fun s r x hresp hr => ⟨x, ?_⟩⟩
  · exact Response.extractLsb'_rdata_pack _ _
  · exact Response.extractLsb'_rdata_pack _ _
  · rw [State.rspWord, hresp, Option.map_some, Option.map_some, Response.extractLsb'_rdata_pack,
      Response.rdata_of_no_value x hr]

end Machine

end Sys2Proof
end
